-- ==== Sys2Proof/Word.lean ====
section
/-! DEFINITION. The widths of the engine (00_scope.md R7, R10). All values are unsigned and
arithmetic on an N-bit value is modulo 2^N (R11), which is what `BitVec N` gives. -/

namespace Sys2Proof

/-- 8 bits: a combined byte, a linear byte, one of the fields `carry`, `current`, `prev`, `linear` (R7). -/
abbrev Byte := BitVec 8

/-- 16 bits: a halfword, the `range` operand, the result of the range limiter (R7). -/
abbrev Half := BitVec 16

/-- 32 bits: the `shift` field and the reseed count (R7). -/
abbrev Word32 := BitVec 32

/-- 64 bits: the packed state, the command word, the data operand, `RESULT` (R7, R55). -/
abbrev Word64 := BitVec 64

end Sys2Proof
end

