-- ==== Sys2Proof/Config.lean ====
section
/-! DEFINITION. The implementation parameters of 00_scope.md R8. The contents of the lookup tables
are not in the source (91_not_in_source.md N3, N4): they are constants without a body, so that no
proof can see what they hold. Every other constant of the algorithm stands where it is used. -/

namespace Sys2Proof

/-- An entry of a cycle-escape table: the multiply-with-carry triple, compared field by field in
this order (41_byte_combiner.md R116). -/
structure Triple where
  prev : Byte
  current : Byte
  carry : Byte
  deriving DecidableEq, Repr

/-- `P_CYCLE_TABLE` as the builder supplies it, OPEN in R8. DESIGN CHOICE, log entry 1. -/
opaque Config.cycleTableEntries : List Triple

/-- `P_START_TABLE` as the builder supplies it, OPEN in R8. DESIGN CHOICE, log entry 1. -/
opaque Config.startTableEntries : List Triple

/-- `P_TRIGGERS` as the builder supplies it, OPEN in R8. DESIGN CHOICE, log entry 1. -/
opaque Config.triggerValues : List Word64

/-- `P_LAYOUT`, default `shift` = `v[31:0]` (R8; 10_state.md R22). -/
def Config.shiftLsb : Nat := 0

/-- `P_LAYOUT`, default `carry` = `v[39:32]` (R8; R22). -/
def Config.carryLsb : Nat := 32

/-- `P_LAYOUT`, default `current` = `v[47:40]` (R8; R22). -/
def Config.currentLsb : Nat := 40

/-- `P_LAYOUT`, default `prev` = `v[55:48]` (R8; R22). -/
def Config.prevLsb : Nat := 48

/-- `P_LAYOUT`, default `linear` = `v[63:56]` (R8; R22). -/
def Config.linearLsb : Nat := 56

/-- `P_AMT_SEL_LSB`, default 6 (R8). -/
def Config.amtSelLsb : Nat := 6

/-- `P_OP_SEL_LSB`, default 4 (R8). -/
def Config.opSelLsb : Nat := 4

end Sys2Proof
end

