-- ==== Sys2Proof/Syntax.lean ====
section
/-! DEFINITION. The commands of the engine, one constructor per row of the opcode table
(30_encoding.md R73), the command transaction (R70), the two errors of the command port
(60_exceptions.md R201) and the assembly language (R81, R82). -/

namespace Sys2Proof

/-- One command of the opcode map R73. Every operand has exactly the width its field has in the
encoding (R71, R74 to R76), so every value of this type is a legal command. -/
inductive Instr
  /-- `NOP`, R191 -/
  | nop
  /-- `LINEAR`, R101 -/
  | linear
  /-- `COMBINE`, R125 -/
  | combine
  /-- `HALFWORD`, R148 -/
  | halfword
  /-- `EXPAND`, R163 -/
  | expand
  /-- `SAMPLE <range>, <reseed>`, R179 -/
  | sample (range : Half) (reseed : Word32)
  /-- `LOAD <value>`, R192: the value is carried in the data operand (R76) -/
  | load (value : Word64)
  /-- `READ`, R193 -/
  | read
  deriving DecidableEq, Repr

/-- One transaction on the command port: the command word and the data operand (R70). -/
structure Command where
  /-- `cmd[63:0]` -/
  cmd : Word64
  /-- `data[63:0]`, read by LOAD only -/
  data : Word64
  deriving DecidableEq, Repr

/-- The errors a command word can raise (R201). Both are reported in `STATUS`; neither stops the engine. -/
inductive CommandError
  /-- `ILLEGAL_OPCODE`, code 1, R202 -/
  | illegalOpcode
  /-- `RESERVED_NONZERO`, code 2, R203 -/
  | reservedNonzero
  deriving DecidableEq, Repr

/-- One line of the assembly language: the eight commands (R81) and the four pseudo-commands (R82).
Operands are the numbers as written; whether they fit is `AsmLine.wellFormed`. -/
inductive AsmLine
  | nop
  | linear
  | combine
  | halfword
  | expand
  | sample (range reseed : Nat)
  | load (value : Nat)
  | read
  /-- `RAW` -/
  | raw
  /-- `UNIFORM <r>` -/
  | uniform (range : Nat)
  /-- `RESEED <n>` -/
  | reseed (count : Nat)
  /-- `STREAM <seed>, <n>, <r>` -/
  | stream (seed count range : Nat)
  deriving DecidableEq, Repr

end Sys2Proof
end

