-- ==== Sys2Proof/WellFormed.lean ====
section
/-! DEFINITION. What the engine's build parameters must satisfy (00_scope.md R8, R9) and what an
assembly operand must satisfy (30_encoding.md R81). A command itself needs no check: its operands
have the widths of their fields. -/

namespace Sys2Proof

/-- R9: every triple has `carry <= 209` and no triple occurs twice. The empty table is well-formed. -/
def escapeEntriesOk (entries : List Triple) : Bool :=
  entries.all (fun t => decide (t.carry.toNat ≤ 209)) && decide entries.Nodup

/-- R8, R9: exactly four values, pairwise distinct. -/
def triggerValuesOk (values : List Word64) : Bool :=
  decide (values.length = 4) && decide values.Nodup

/-- Whether bit `i` lies in the field of that width whose lowest bit is `lsb`: 1 or 0. -/
def covers (i lsb width : Nat) : Nat := if lsb ≤ i ∧ i < lsb + width then 1 else 0

/-- How many of the five fields of the state bit `i` lies in, each field of its width in 10_state.md R20. -/
def fieldsAt (shift carry current prev linear i : Nat) : Nat :=
  covers i shift 32 + covers i carry 8 + covers i current 8 + covers i prev 8 + covers i linear 8

/-- The five fields lie inside the 64 bits and tile them exactly once: there is no padding (R20, R22). -/
def layoutOk (shift carry current prev linear : Nat) : Bool :=
  decide (shift + 32 ≤ 64) && decide (carry + 8 ≤ 64) && decide (current + 8 ≤ 64) &&
    decide (prev + 8 ≤ 64) && decide (linear + 8 ≤ 64) &&
    (List.range 64).all (fun i => decide (fieldsAt shift carry current prev linear i = 1))

/-- R8: each selector starts at bit 0..6 of `linear`, and the two 2-bit selectors do not overlap. -/
def selectorsOk (amtLsb opLsb : Nat) : Bool :=
  decide (amtLsb ≤ 6) && decide (opLsb ≤ 6) && (decide (amtLsb + 2 ≤ opLsb) || decide (opLsb + 2 ≤ amtLsb))

/-- A cycle-escape table that passes R9; an ill-formed one cannot be built. -/
structure EscapeTable where
  entries : List Triple
  ok : escapeEntriesOk entries = true
  deriving DecidableEq, Repr

/-- The trigger table `T0..T3`, passing R9. -/
structure TriggerTable where
  values : List Word64
  ok : triggerValuesOk values = true
  deriving DecidableEq, Repr

/-- `P_LAYOUT`: where the lowest bit of each field of the state stands in the packed value (R8). -/
structure Layout where
  shiftLsb : Nat
  carryLsb : Nat
  currentLsb : Nat
  prevLsb : Nat
  linearLsb : Nat
  ok : layoutOk shiftLsb carryLsb currentLsb prevLsb linearLsb = true
  deriving DecidableEq, Repr

/-- The layout of 10_state.md R22, the default. -/
def Layout.default : Layout :=
  ⟨Config.shiftLsb, Config.carryLsb, Config.currentLsb, Config.prevLsb, Config.linearLsb, rfl⟩

/-- The positions of the two selectors of the Byte Combiner, passing R8. -/
structure Selectors where
  amtLsb : Nat
  opLsb : Nat
  ok : selectorsOk amtLsb opLsb = true
  deriving DecidableEq, Repr

/-- The entries as a table; entries that fail R9 are turned away and the table is empty. -/
def EscapeTable.ofList (entries : List Triple) : EscapeTable :=
  if h : escapeEntriesOk entries = true then ⟨entries, h⟩ else ⟨[], rfl⟩

/-- The values as a trigger table; values that fail R9 are turned away, and four distinct numbers
stand in their place (log entry 1: every well-formed table is still reached by its own values). -/
def TriggerTable.ofList (values : List Word64) : TriggerTable :=
  if h : triggerValuesOk values = true then ⟨values, h⟩ else ⟨[0, 1, 2, 3], rfl⟩

/-- Everything that is fixed when an engine is built (R8, R31). -/
structure Params where
  /-- `P_CYCLE_TABLE`, the source's "short cycles" -/
  cycleTable : EscapeTable
  /-- `P_START_TABLE`, the source's "cycle starts" -/
  startTable : EscapeTable
  /-- `P_TRIGGERS`, the source's "transcendental-constant triggers" -/
  triggers : TriggerTable
  /-- `P_LAYOUT` -/
  layout : Layout
  /-- `P_AMT_SEL_LSB` and `P_OP_SEL_LSB` -/
  selectors : Selectors
  deriving DecidableEq, Repr

/-- The parameters of the engine as built: the open tables, and the default layout and selectors of R8. -/
def Config.params : Params where
  cycleTable := EscapeTable.ofList Config.cycleTableEntries
  startTable := EscapeTable.ofList Config.startTableEntries
  triggers := TriggerTable.ofList Config.triggerValues
  layout := Layout.default
  selectors := ⟨Config.amtSelLsb, Config.opSelLsb, rfl⟩

/-- R81: operands in range (a `range` is 0..65535, a reseed count 0..2^32-1, a value 0..2^64-1). -/
def AsmLine.wellFormed : AsmLine → Bool
  | .nop => true
  | .linear => true
  | .combine => true
  | .halfword => true
  | .expand => true
  | .sample range count => decide (range < 2 ^ 16) && decide (count < 2 ^ 32)
  | .load value => decide (value < 2 ^ 64)
  | .read => true
  | .raw => true
  | .uniform range => decide (range < 2 ^ 16)
  | .reseed count => decide (count < 2 ^ 32)
  | .stream seed count range =>
    decide (seed < 2 ^ 64) && decide (count < 2 ^ 32) && decide (range < 2 ^ 16)

end Sys2Proof
end

