-- ==== Sys2Proof/Decode.lean ====
section
/-! DEFINITION. The decoder of a command transaction (30_encoding.md R77), total on every pair of
words, and the encoder and the assembler's expansion beside it. -/

namespace Sys2Proof

/-- `OPC = cmd[3:0]` (R71). -/
def opcodeField (cmd : Word64) : BitVec 4 := cmd.extractLsb' 0 4

/-- `RSV0 = cmd[7:4]` (R71). -/
def reserved0Field (cmd : Word64) : BitVec 4 := cmd.extractLsb' 4 4

/-- `RANGE = cmd[23:8]` (R71, R74). -/
def rangeField (cmd : Word64) : Half := cmd.extractLsb' 8 16

/-- `RESEED = cmd[55:24]` (R71, R75). -/
def reseedField (cmd : Word64) : Word32 := cmd.extractLsb' 24 32

/-- `RSV1 = cmd[63:56]` (R71). -/
def reserved1Field (cmd : Word64) : Byte := cmd.extractLsb' 56 8

/-- `cmd[63:4]`, all reserved for every opcode but SAMPLE's (R72). -/
def aboveOpcodeField (cmd : Word64) : BitVec 60 := cmd.extractLsb' 4 60

/-- R77: the opcode is checked first, then the reserved bits. Only LOAD reads `data` (R70, R76). -/
def decode (c : Command) : Except CommandError Instr :=
  if 8#4 ≤ opcodeField c.cmd then .error .illegalOpcode
  else if opcodeField c.cmd = 5#4 then
    if reserved0Field c.cmd ≠ 0#4 ∨ reserved1Field c.cmd ≠ 0#8 then .error .reservedNonzero
    else .ok (.sample (rangeField c.cmd) (reseedField c.cmd))
  else if aboveOpcodeField c.cmd ≠ 0#60 then .error .reservedNonzero
  else if opcodeField c.cmd = 0#4 then .ok .nop
  else if opcodeField c.cmd = 1#4 then .ok .linear
  else if opcodeField c.cmd = 2#4 then .ok .combine
  else if opcodeField c.cmd = 3#4 then .ok .halfword
  else if opcodeField c.cmd = 4#4 then .ok .expand
  else if opcodeField c.cmd = 6#4 then .ok (.load c.data)
  else .ok .read

/-- The command word whose opcode is `opc` and whose other bits are zero (R71, R72). -/
def bareWord (opc : BitVec 4) : Word64 := 0#60 ++ opc

/-- SAMPLE's command word, `RSV1 ++ RESEED ++ RANGE ++ RSV0 ++ OPC` (R71). -/
def sampleWord (range : Half) (reseed : Word32) : Word64 :=
  0#8 ++ reseed ++ range ++ 0#4 ++ 5#4

/-- The transaction of a command (R71 to R76, R83). `data` is zero where the command ignores it. -/
def encode : Instr → Command
  | .nop => ⟨bareWord 0#4, 0⟩
  | .linear => ⟨bareWord 1#4, 0⟩
  | .combine => ⟨bareWord 2#4, 0⟩
  | .halfword => ⟨bareWord 3#4, 0⟩
  | .expand => ⟨bareWord 4#4, 0⟩
  | .sample range reseed => ⟨sampleWord range reseed, 0⟩
  | .load value => ⟨bareWord 6#4, value⟩
  | .read => ⟨bareWord 7#4, 0⟩

/-- The transaction whose bits are those of `w` below bit `nbits`: bits 63..0 are the command word,
bits 127..64 the data operand. -/
def commandOfTableBits (nbits w : Nat) : Command :=
  ⟨BitVec.ofNat 64 (w % 2 ^ nbits), BitVec.ofNat 64 (w % 2 ^ nbits / 2 ^ 64)⟩

/-- The command the decoder reads from an opcode-table word, `none` where it raises an error. -/
def decodeTableWord (nbits w : Nat) : Option Instr :=
  match decode (commandOfTableBits nbits w) with
  | .ok i => some i
  | .error _ => none

/-- What the assembler emits for a line whose operands are in range (R81, R82). -/
def AsmLine.expansion : AsmLine → List Instr
  | .nop => [.nop]
  | .linear => [.linear]
  | .combine => [.combine]
  | .halfword => [.halfword]
  | .expand => [.expand]
  | .sample range count => [.sample (BitVec.ofNat 16 range) (BitVec.ofNat 32 count)]
  | .load value => [.load (BitVec.ofNat 64 value)]
  | .read => [.read]
  | .raw => [.sample 0 0]
  | .uniform range => [.sample (BitVec.ofNat 16 range) 0]
  | .reseed count => [.sample 1 (BitVec.ofNat 32 count)]
  | .stream seed count range =>
    [.load (BitVec.ofNat 64 seed), .sample (BitVec.ofNat 16 range) (BitVec.ofNat 32 count)]

/-- R81: an operand out of its range is rejected, never truncated. -/
def AsmLine.assemble (line : AsmLine) : Option (List Command) :=
  if line.wellFormed then some (line.expansion.map encode) else none

end Sys2Proof
end

