-- ==== Sys2Proof/Machine/State.lean ====
section
/-! DEFINITION. The state of the engine (10_state.md), what its host is about to do at the port
(60_exceptions.md R215), the reasons a step can stop, and the state right after reset (R34). -/

namespace Sys2Proof.Machine

/-- The five fields of the state register `st` (R20). Every value is legal (R23). -/
structure GenState where
  /-- the xorshift register -/
  shift : Word32
  /-- the multiply-with-carry overflow register -/
  carry : Byte
  /-- the multiply-with-carry output byte -/
  current : Byte
  /-- the multiply-with-carry byte before `current` -/
  prev : Byte
  /-- the byte driven by the Linear Byte Step -/
  linear : Byte
  deriving DecidableEq, Repr

/-- `STATUS.ERR` (R28, R201). Code 3 is never produced, so it has no constructor
(93_implementation_defined.md U9). -/
inductive ErrCode
  | none
  | illegalOpcode
  | reservedNonzero
  deriving DecidableEq, Repr

/-- What the engine is doing. `STATUS.BUSY` is 0 exactly in `idle` (R28, R235); the other
constructors hold what a command keeps from one step to the next (R32). -/
inductive Activity
  /-- no command is executing -/
  | idle
  /-- a command was accepted and has not been decoded yet (R235) -/
  | accepted (c : Command)
  /-- SAMPLE with that many Seed Expander steps still to do before the limiter (R178) -/
  | reseeding (range : Half) (remaining : Word32)
  /-- SAMPLE in the rejection loop: the range, the threshold `t` and the candidate halfword
  that was drawn last (R174, R177) -/
  | redrawing (range threshold candidate : Half)
  deriving DecidableEq, Repr

/-- One thing the host does at the engine's inputs (R215). DESIGN CHOICE, log entry 3. -/
inductive HostAction
  /-- present a command and hold it stable until the engine accepts it (R236) -/
  | present (c : Command)
  /-- assert reset; it acts whatever the engine is doing (R231) -/
  | reset
  /-- do nothing for one step of the engine -/
  | pause
  deriving DecidableEq, Repr

/-- The engine, and the host's remaining actions. -/
structure State where
  /-- the generator state register `st` (R20) -/
  gen : GenState
  /-- `RESULT` (R27) -/
  result : Word64
  /-- `STATUS.ERR` (R28) -/
  err : ErrCode
  /-- `STATUS.ERRSEEN` (R28) -/
  errSeen : Bool
  /-- `STATUS.BUSY` and the hidden temporaries of a running SAMPLE (R28, R32) -/
  activity : Activity
  /-- the read-only tables, the layout and the selector positions, fixed at build time (R31, R8) -/
  params : Params
  /-- what the host does next, first to last; host state, not the engine's (R29, R234) -/
  inputs : List HostAction
  deriving DecidableEq, Repr

/-- Reasons a step could stop the machine: none. The algorithm raises no exception (R200), and the
two errors of the command port are a next state, after which the engine accepts commands as before
(R204). -/
inductive Fault
  deriving DecidableEq, Repr

/-- Why the model could have no meaning for a command. -/
inductive Refusal
  /-- Raised by a refused arm of `exec` only, for a command without a meaning. Safe: the run ends and nothing
  is claimed of it. No arm is refused now. -/
  | notModelled (mnemonic : String)
  deriving DecidableEq, Repr

/-- All five fields zero, the reset value of `st` (R34). -/
def GenState.zero : GenState := ⟨0, 0, 0, 0, 0⟩

/-- The machine right after reset (R34, R230), with a silent host. -/
def State.reset : State where
  gen := GenState.zero
  result := 0
  err := .none
  errSeen := false
  activity := .idle
  params := Config.params
  inputs := []

end Sys2Proof.Machine
end

