-- ==== Sys2Proof/Machine/Flags.lean ====
section
/-! DEFINITION. The `STATUS` register as the host reads it (10_state.md R28) and the codes of
`STATUS.ERR` (60_exceptions.md R201). The engine has no other flags (R30). -/

namespace Sys2Proof.Machine

/-- The 2-bit code of `STATUS.ERR` (R201). -/
def ErrCode.bits : ErrCode → BitVec 2
  | .none => 0
  | .illegalOpcode => 1
  | .reservedNonzero => 2

/-- The code an error is recorded under (R201). -/
def errCodeOf : CommandError → ErrCode
  | .illegalOpcode => .illegalOpcode
  | .reservedNonzero => .reservedNonzero

/-- `STATUS.BUSY`: 1 from acceptance of a command until it completes (R28). -/
def State.busy (s : State) : Bool := decide (s.activity ≠ .idle)

/-- The byte the host reads: bits 7:4 hardwired 0, `ERRSEEN`, `ERR`, `BUSY` (R28). -/
def State.status (s : State) : Byte :=
  0#4 ++ BitVec.ofBool s.errSeen ++ s.err.bits ++ BitVec.ofBool s.busy

end Sys2Proof.Machine
end

