-- ==== Sys2Proof/Machine/Operands.lean ====
section
/-! DEFINITION. How the engine takes fields out of words and puts words together: the state codec
(10_state.md R22), the width conversion (00_scope.md R12), the rotation (R11), the selectors of the
Byte Combiner (41_byte_combiner.md R119), the controls of the Halfword Generator (42_halfword.md
R143) and the lookup both kinds of table share (R116, R141). -/

namespace Sys2Proof.Machine

/-- `zext_64` (R12). -/
def zext64 {n : Nat} (v : BitVec n) : Word64 := v.setWidth 64

/-- `pack(st)`: each field at its place in the layout. In the default layout this is
`linear ++ prev ++ current ++ carry ++ shift` (R22). -/
@[irreducible] def GenState.pack (l : Layout) (g : GenState) : Word64 :=
  (zext64 g.linear <<< l.linearLsb) ||| (zext64 g.prev <<< l.prevLsb) |||
    (zext64 g.current <<< l.currentLsb) ||| (zext64 g.carry <<< l.carryLsb) |||
    (zext64 g.shift <<< l.shiftLsb)

/-- `unpack(v)` (R22). -/
@[irreducible] def GenState.unpack (l : Layout) (v : Word64) : GenState where
  shift := v.extractLsb' l.shiftLsb 32
  carry := v.extractLsb' l.carryLsb 8
  current := v.extractLsb' l.currentLsb 8
  prev := v.extractLsb' l.prevLsb 8
  linear := v.extractLsb' l.linearLsb 8

/-- `rotl16(x, r)` for `0 <= r <= 15` (R11). -/
def rotl16 (x : Half) (r : BitVec 4) : Half :=
  if r = 0 then x else (x <<< r.toNat) ||| (x >>> (16 - r.toNat))

/-- The four combining operators, in the order of their codes (R121). -/
inductive CombineOp
  | sum
  | xor
  | shiftedMinusCurrent
  | currentMinusShifted
  deriving DecidableEq, Repr

/-- The operator of a 2-bit code (R121). -/
def combineOpOf (code : BitVec 2) : CombineOp :=
  if code = 0 then .sum
  else if code = 1 then .xor
  else if code = 2 then .shiftedMinusCurrent
  else .currentMinusShifted

/-- `amount = 8 * l[P_AMT_SEL_LSB+1 : P_AMT_SEL_LSB]` (R119). -/
def shiftAmount (sel : Selectors) (l : Byte) : Nat :=
  8 * (l.extractLsb' sel.amtLsb 2).toNat

/-- The operator that `l[P_OP_SEL_LSB+1 : P_OP_SEL_LSB]` selects (R119, R121). -/
def selectedOp (sel : Selectors) (l : Byte) : CombineOp :=
  combineOpOf (l.extractLsb' sel.opLsb 2)

/-- The operator applied to the shifted byte and `current`, low 8 bits (R121). -/
def CombineOp.apply : CombineOp → Byte → Byte → Byte
  | .sum, sh, c => sh + c
  | .xor, sh, c => sh ^^^ c
  | .shiftedMinusCurrent, sh, c => sh - c
  | .currentMinusShifted, sh, c => c - sh

/-- `rot = b3[7:4]` (R143). -/
def rotationOf (b3 : Byte) : BitVec 4 := b3.extractLsb' 4 4

/-- `m = 3 + 2 * b3[3:2]` (R143). -/
def multiplierOf (b3 : Byte) : Half := 3 + 2 * (b3.extractLsb' 2 2).setWidth 16

/-- `n = b3[1:0] + 2` (R143). -/
def roundsOf (b3 : Byte) : Nat := (b3.extractLsb' 0 2).toNat + 2

/-- The entry after the first one equal to `x`, the first entry following the last (R116, R141);
nothing where no entry equals `x`. -/
def successorIn {α : Type} [DecidableEq α] (table : List α) (x : α) : Option α :=
  match table.idxOf? x with
  | some i => table[(i + 1) % table.length]?
  | none => none

end Sys2Proof.Machine
end

