-- ==== Sys2Proof/Machine/Ops.lean ====
section
/-! DEFINITION. The named operations on the whole state that every command shares: writing the
generator state, completing, raising an error, accepting a command, reset. -/

namespace Sys2Proof.Machine

/-- The state with `st` replaced. -/
def State.withGen (s : State) (g : GenState) : State := { s with gen := g }

/-- A command completes without error: `RESULT` is written, `ERR <- NONE`, `ERRSEEN` stays, `BUSY <- 0`
(R78, R206, R235). -/
def State.complete (s : State) (result : Word64) : State :=
  { s with result := result, err := .none, activity := .idle }

/-- The error of a command word, in full (R204): `RESULT <- 0`, `ERR <- code`, `ERRSEEN <- 1`, idle.
This is all of the engine's "trap entry" (R208); nothing is saved, so there is no return from it
(R209). -/
def State.raiseError (s : State) (e : CommandError) : State :=
  { s with result := 0, err := errCodeOf e, errSeen := true, activity := .idle }

/-- The engine accepts a command: `BUSY <- 1` and nothing else yet (R235). -/
def State.accept (s : State) (c : Command) : State := { s with activity := .accepted c }

/-- Reset: every register to its value of R34, the read-only tables unchanged (R230, R231). -/
def State.applyReset (s : State) : State :=
  { s with gen := GenState.zero, result := 0, err := .none, errSeen := false, activity := .idle }

end Sys2Proof.Machine
end

