-- ==== Sys2Proof/Machine/Linear.lean ====
section
/-! DEFINITION. The Linear Byte Step and the LINEAR command (40_linear_step.md). -/

namespace Sys2Proof.Machine

/-- `x * 73 + 29` modulo 256, the map of the Linear Byte Step (R100). (Here and in the other linear
steps the constants stand on the left, where Lean does not unfold them.) -/
def linearNext (x : Byte) : Byte := 29 + 73 * x

/-- `LinearStep()` (R100): the value it returns is the field `linear` it leaves. -/
def linearStep (g : GenState) : GenState := { g with linear := linearNext g.linear }

/-- LINEAR (R101). -/
def execLinear (s : State) : Host.Outcome State Fault Refusal :=
  .next ((s.withGen (linearStep s.gen)).complete (zext64 (linearStep s.gen).linear))

end Sys2Proof.Machine
end

