-- ==== Sys2Proof/Machine/Combiner.lean ====
section
/-! DEFINITION. The Byte Combiner with its cycle-escape tables, and the COMBINE command
(41_byte_combiner.md). -/

namespace Sys2Proof.Machine

/-- Sub-step 1 (R111): a zero `shift` is refilled with four linear bytes, the first one highest. -/
def refillShift (g : GenState) : GenState :=
  if g.shift = 0 then
    let g1 := linearStep g
    let g2 := linearStep g1
    let g3 := linearStep g2
    let g4 := linearStep g3
    { g4 with shift := g1.linear ++ g2.linear ++ g3.linear ++ g4.linear }
  else g

/-- The three assignments of the xorshift: right 8, left 9, right 23 (R112). -/
def xorshift (x : Word32) : Word32 :=
  let x1 := x ^^^ (x >>> 8)
  let x2 := x1 ^^^ (x1 <<< 9)
  x2 ^^^ (x2 >>> 23)

/-- Sub-step 2 (R112). -/
def stepShift (g : GenState) : GenState := { g with shift := xorshift g.shift }

/-- `if carry >= 210: carry <- carry - 210` (R114). -/
def carryBelow210 (c : Byte) : Byte := if 210#8 ≤ c then c - 210#8 else c

/-- Sub-step 3a (R114). -/
def normalizeCarry (g : GenState) : GenState := { g with carry := carryBelow210 g.carry }

/-- The sum `carry + prev + current`, exact (R115). -/
def tripleSum (g : GenState) : Nat := g.carry.toNat + g.prev.toNat + g.current.toNat

/-- A degenerate point: the sum is 0 or 719 (R115). -/
def degenerate (g : GenState) : Bool := decide (tripleSum g = 0) || decide (tripleSum g = 719)

/-- Sub-step 3b (R115): at a degenerate point `prev`, `carry`, `current` take three linear bytes in
this order, and the carry is normalized again. -/
def escapeDegenerate (g : GenState) : GenState :=
  if degenerate g then
    let g1 := linearStep g
    let g2 := linearStep g1
    let g3 := linearStep g2
    normalizeCarry { g3 with prev := g1.linear, carry := g2.linear, current := g3.linear }
  else g

/-- The triple the tables are keyed on (R116). -/
def tripleOf (g : GenState) : Triple := ⟨g.prev, g.current, g.carry⟩

/-- The table that is consulted: the start table exactly where `prev` and `current` are both zero (R116). -/
def escapeTableFor (p : Params) (g : GenState) : EscapeTable :=
  if g.prev = 0 ∧ g.current = 0 then p.startTable else p.cycleTable

/-- Sub-step 3c (R116): a triple found in its table is replaced by the table's next entry. -/
def escapeCycle (p : Params) (g : GenState) : GenState :=
  match successorIn (escapeTableFor p g).entries (tripleOf g) with
  | some t => { g with prev := t.prev, current := t.current, carry := t.carry }
  | none => g

/-- `p = 210 * prev + carry`, in 16 bits, where it is exact (R117). -/
def mwcProduct (g : GenState) : Half := 210#16 * g.prev.setWidth 16 + g.carry.setWidth 16

/-- Sub-step 3d (R117): the multiply-with-carry update. -/
def mwcUpdate (g : GenState) : GenState :=
  { g with
    current := (mwcProduct g).extractLsb' 0 8
    carry := (mwcProduct g).extractLsb' 8 8
    prev := g.current }

/-- Sub-steps 1 to 3b: what happens before the table lookup (R110). -/
def beforeLookup (g : GenState) : GenState :=
  escapeDegenerate (normalizeCarry (stepShift (refillShift g)))

/-- The state `Combine()` leaves: sub-steps 1 to 4 in their order (R110, R118, R124). -/
@[irreducible] def combineState (p : Params) (g : GenState) : GenState :=
  linearStep (mwcUpdate (escapeCycle p (beforeLookup g)))

/-- The shifted byte `(shift >> amount)[7:0]` (R120). -/
def shiftedByte (p : Params) (g : GenState) : Byte :=
  (g.shift >>> shiftAmount p.selectors g.linear).setWidth 8

/-- Sub-steps 5 and 6 (R119 to R121), read from the state sub-step 4 leaves. -/
@[irreducible] def combinedByte (p : Params) (g : GenState) : Byte :=
  (selectedOp p.selectors g.linear).apply (shiftedByte p g) g.current

/-- `Combine()` (R124): the combined byte and the new state. -/
def combine (p : Params) (g : GenState) : Byte × GenState :=
  (combinedByte p (combineState p g), combineState p g)

/-- COMBINE (R125). -/
def execCombine (s : State) : Host.Outcome State Fault Refusal :=
  .next ((s.withGen (combine s.params s.gen).2).complete (zext64 (combine s.params s.gen).1))

end Sys2Proof.Machine
end

