-- ==== Sys2Proof/Machine/Halfword.lean ====
section
/-! DEFINITION. The Halfword Generator with its trigger table, and the HALFWORD command
(42_halfword.md). -/

namespace Sys2Proof.Machine

/-- Step 1 (R141): a state whose packed value is a trigger is replaced by the next trigger. -/
def checkTrigger (p : Params) (g : GenState) : GenState :=
  match successorIn p.triggers.values (g.pack p.layout) with
  | some v => GenState.unpack p.layout v
  | none => g

/-- One round of the 16-bit linear congruential step, `buf * 0x6329 + 0x4321` modulo 2^16 (R144). -/
def bufferRound (buf : Half) : Half := 0x4321 + 0x6329 * buf

/-- `n` rounds (R144). -/
def bufferRounds : Nat → Half → Half
  | 0, buf => buf
  | n + 1, buf => bufferRounds n (bufferRound buf)

/-- Steps 4 to 6 under the control byte `b3`: the rounds, the rotation, the odd multiply (R143 to R146). -/
@[irreducible] def mixBuffer (b3 : Byte) (buf : Half) : Half :=
  rotl16 (bufferRounds (roundsOf b3) buf) (rotationOf b3) * multiplierOf b3

/-- `Halfword()` (R147): three combined bytes, the first two making the buffer, the third the controls. -/
def halfword (p : Params) (g : GenState) : Half × GenState :=
  let d1 := combine p (checkTrigger p g)
  let d2 := combine p d1.2
  let d3 := combine p d2.2
  (mixBuffer d3.1 (d1.1 ++ d2.1), d3.2)

/-- HALFWORD (R148). -/
def execHalfword (s : State) : Host.Outcome State Fault Refusal :=
  .next ((s.withGen (halfword s.params s.gen).2).complete (zext64 (halfword s.params s.gen).1))

end Sys2Proof.Machine
end

