-- ==== Sys2Proof/Machine/Expander.lean ====
section
/-! DEFINITION. The Seed Expander and the EXPAND command (43_seed_expander.md). -/

namespace Sys2Proof.Machine

/-- `n` combined bytes shifted into an accumulator, the first one highest (R160, R162). -/
def drawBytes (p : Params) : Nat → Word64 × GenState → Word64 × GenState
  | 0, d => d
  | n + 1, d => drawBytes p n ((d.1 <<< 8) ||| zext64 (combine p d.2).1, (combine p d.2).2)

/-- `n` halfwords shifted into an accumulator, the first one highest (R161, R162). -/
def drawHalfwords (p : Params) : Nat → Word64 × GenState → Word64 × GenState
  | 0, d => d
  | n + 1, d => drawHalfwords p n ((d.1 <<< 16) ||| zext64 (halfword p d.2).1, (halfword p d.2).2)

/-- The 64-bit step of the first accumulator, `x * 0x5851F42D4C957F2D + 0x0123456789ABCDEF` (R160). -/
def expandFirst (x : Word64) : Word64 := 0x0123456789ABCDEF + 0x5851F42D4C957F2D * x

/-- The 64-bit step of the second accumulator, `x * 0x5851F42D4C957F2D + 0x0FEDCBA987654321` (R161). -/
def expandSecond (x : Word64) : Word64 := 0x0FEDCBA987654321 + 0x5851F42D4C957F2D * x

/-- The value `Expand()` returns, which is the new packed state (R162): eight combined bytes, then
four halfwords. The state the draws leave is discarded. -/
@[irreducible] def expandValue (p : Params) (g : GenState) : Word64 :=
  let bytes := drawBytes p 8 (0, g)
  let halves := drawHalfwords p 4 (0, bytes.2)
  expandFirst bytes.1 ^^^ expandSecond halves.1

/-- The state `Expand()` leaves (R162). -/
def expandState (p : Params) (g : GenState) : GenState :=
  GenState.unpack p.layout (expandValue p g)

/-- EXPAND (R163). -/
def execExpand (s : State) : Host.Outcome State Fault Refusal :=
  .next ((s.withGen (expandState s.params s.gen)).complete (expandValue s.params s.gen))

end Sys2Proof.Machine
end

