-- ==== Sys2Proof/Machine/Limiter.lean ====
section
/-! DEFINITION. The Range Limiter and the SAMPLE command (44_range_limiter.md). A SAMPLE is run as
repeated steps: one Seed Expander step each, then the first draw, then one redraw each, so that a
rejection loop that never ends is an engine that stays busy (R177, R237; log entry 4). -/

namespace Sys2Proof.Machine

/-- The rejection threshold `t = 0x10000 % range` (R174). -/
def rejectionThreshold (range : Half) : Half := BitVec.ofNat 16 (0x10000 % range.toNat)

/-- The test at the head of `while h < t` (R174): a candidate below the threshold is held for the
next step to redraw, any other one gives the result. -/
def State.testCandidate (s : State) (range threshold candidate : Half) : State :=
  if candidate < threshold then { s with activity := .redrawing range threshold candidate }
  else s.complete (zext64 (candidate % range))

/-- One iteration of the rejection loop (R174, R177). -/
def State.redraw (s : State) (range threshold candidate : Half) : State :=
  if candidate < threshold then
    (s.withGen (halfword s.params s.gen).2).testCandidate range threshold (halfword s.params s.gen).1
  else s.complete (zext64 (candidate % range))

/-- What `Limit(range)` does with the halfword it drew first, `range` not being 1 (R170, R172, R174). -/
def State.limitDrawn (s : State) (range h : Half) : State :=
  if range = 0 then s.complete (zext64 h)
  else if range &&& (range - 1) = 0 then s.complete (zext64 (h &&& (range - 1)))
  else if h < range then s.testCandidate range (rejectionThreshold range) h
  else s.complete (zext64 (h % range))

/-- `Limit(range)` up to the rejection loop (R173). The case `range = 1` draws nothing (R171). -/
def State.limit (s : State) (range : Half) : State :=
  if range = 1 then s.complete 0
  else (s.withGen (halfword s.params s.gen).2).limitDrawn range (halfword s.params s.gen).1

/-- `Sample(range, reseed)` (R178), one step of it: a Seed Expander step while any is left to do,
then the limiter. -/
def State.sampleFrom (s : State) (range : Half) (reseed : Word32) : State :=
  if reseed = 0 then s.limit range
  else { s.withGen (expandState s.params s.gen) with activity := .reseeding range (reseed - 1) }

/-- SAMPLE (R179), its first step. -/
def execSample (range : Half) (reseed : Word32) (s : State) : Host.Outcome State Fault Refusal :=
  .next (s.sampleFrom range reseed)

end Sys2Proof.Machine
end

