-- ==== Sys2Proof/Machine/Transfer.lean ====
section
/-! DEFINITION. The commands NOP, LOAD and READ (45_state_transfer.md). -/

namespace Sys2Proof.Machine

/-- NOP (R191): `st` and `RESULT` unchanged, completed without error. -/
def execNop (s : State) : Host.Outcome State Fault Refusal := .next (s.complete s.result)

/-- LOAD (R192): every value is accepted, and no sub-operation runs. -/
def execLoad (value : Word64) (s : State) : Host.Outcome State Fault Refusal :=
  .next ((s.withGen (GenState.unpack s.params.layout value)).complete value)

/-- READ (R193). -/
def execRead (s : State) : Host.Outcome State Fault Refusal := .next (s.complete (s.gen.pack s.params.layout))

end Sys2Proof.Machine
end

