-- ==== Sys2Proof/Machine/Dispatch.lean ====
section
/-! DEFINITION. One arm per command. -/

namespace Sys2Proof.Machine

def exec (i : Instr) (s : State) : Host.Outcome State Fault Refusal :=
  match i with
  | .nop => Sys2Proof.Machine.execNop s
  | .linear => Sys2Proof.Machine.execLinear s
  | .combine => Sys2Proof.Machine.execCombine s
  | .halfword => Sys2Proof.Machine.execHalfword s
  | .expand => Sys2Proof.Machine.execExpand s
  | .sample range reseed => Sys2Proof.Machine.execSample range reseed s
  | .load value => Sys2Proof.Machine.execLoad value s
  | .read => Sys2Proof.Machine.execRead s

end Sys2Proof.Machine
end

