-- ==== Sys2Proof/Machine/Port.lean ====
section
/-! DEFINITION. The command port (70_reset_and_hazards.md R235 to R237): what one step of the engine
does with what the host is doing at its inputs. -/

namespace Sys2Proof.Machine

/-- The accepted command is decoded, before any state changes, and executed, or its error is raised
(R77, R204, R207, R235). -/
def runAccepted (c : Command) (s : State) : Host.Outcome State Fault Refusal :=
  match decode c with
  | .ok i => exec i s
  | .error e => .next (s.raiseError e)

/-- The engine works on what it is doing; an idle engine changes nothing. -/
def advance (s : State) : Host.Outcome State Fault Refusal :=
  match s.activity with
  | .idle => .next s
  | .accepted c => runAccepted c s
  | .reseeding range remaining => .next (s.sampleFrom range remaining)
  | .redrawing range threshold candidate => .next (s.redraw range threshold candidate)

/-- The host has done its first remaining action. -/
def State.withInputs (s : State) (rest : List HostAction) : State := { s with inputs := rest }

/-- The host presents `c`: an idle engine takes it off the port; a busy one works on and leaves it
waiting there (R235, R236). -/
def presentCommand (c : Command) (rest : List HostAction) (s : State) : Host.Outcome State Fault Refusal :=
  if s.busy then advance s else .next ((s.withInputs rest).accept c)

/-- One step of the engine under the host's next action. Reset acts whatever the engine is doing
(R231). -/
def portStep (s : State) : Host.Outcome State Fault Refusal :=
  match s.inputs with
  | [] => advance s
  | .pause :: rest => advance (s.withInputs rest)
  | .present c :: rest => presentCommand c rest s
  | .reset :: rest => .next (s.withInputs rest).applyReset

/-- The host's actions with a reset that stands first put off by one step. -/
def letOneStepPass : List HostAction → List HostAction
  | .reset :: rest => .pause :: .reset :: rest
  | inputs => inputs

end Sys2Proof.Machine
end

