-- ==== Sys2Proof/Machine/Step.lean ====
section
/-! DEFINITION. One step of the machine. -/

namespace Sys2Proof.Machine

/-- One step: the port's (R235 to R237). -/
def step (s : State) : Host.Outcome State Fault Refusal := portStep s

/-- The state in which the engine has accepted the command whose bits are `w`, so that the very next
step decodes and runs it. A reset the host is asserting waits that one step (log entry 5). -/
def State.withFetchWord (s : State) (nbits w : Nat) : State :=
  (s.withInputs (letOneStepPass s.inputs)).accept (commandOfTableBits nbits w)

end Sys2Proof.Machine
end

