-- ==== Sys2Proof/Assembler.lean ====
section
/-! DEFINITION. The text of the assembly language (30_encoding.md R81, R82): one command per line,
mnemonics case-insensitive, `;` starts a comment, numbers decimal or `0x` hexadecimal. -/

namespace Sys2Proof.Assembler

/-- A line without its comment. -/
def stripComment : List Char → List Char
  | [] => []
  | c :: cs => if c = ';' then [] else c :: stripComment cs

/-- Characters that can make one word: no blank, no comma, no comment sign. -/
def isWord (w : List Char) : Bool := w.all (fun c => c ≠ ' ' && c ≠ '\t' && c ≠ ',' && c ≠ ';')

/-- What a line is made of: words, and the commas between operands. -/
inductive Token
  | word (chars : List Char)
  | comma
  deriving DecidableEq, Repr

/-- The word read so far, if any. -/
def pendingWord : List Char → List Token
  | [] => []
  | c :: cs => [.word (c :: cs)]

/-- The tokens of a line: blanks and commas end a word. DESIGN CHOICE, log entry 7. -/
def tokens (soFar : List Char) : List Char → List Token
  | [] => pendingWord soFar
  | c :: cs =>
    if c = ' ' ∨ c = '\t' then pendingWord soFar ++ tokens [] cs
    else if c = ',' then pendingWord soFar ++ .comma :: tokens [] cs
    else tokens (soFar ++ [c]) cs

/-- The value of a digit in the given base. -/
def digitValue (base : Nat) (c : Char) : Option Nat :=
  let v := if '0' ≤ c ∧ c ≤ '9' then c.toNat - '0'.toNat
    else if 'a' ≤ c ∧ c ≤ 'f' then c.toNat - 'a'.toNat + 10
    else if 'A' ≤ c ∧ c ≤ 'F' then c.toNat - 'A'.toNat + 10
    else base
  if v < base then some v else none

/-- The value of a row of digits, the most significant first. -/
def digitsValue (base : Nat) (soFar : Nat) : List Char → Option Nat
  | [] => some soFar
  | c :: cs =>
    match digitValue base c with
    | some v => digitsValue base (soFar * base + v) cs
    | none => none

/-- A number, decimal or `0x` hexadecimal. -/
def number : List Char → Option Nat
  | [] => none
  | '0' :: 'x' :: d :: ds => digitsValue 16 0 (d :: ds)
  | d :: ds => digitsValue 10 0 (d :: ds)

/-- Operands: numbers separated by commas. -/
def operands : List Token → Option (List Nat)
  | [] => some []
  | [.word w] => (number w).map (fun v => [v])
  | .word w :: .comma :: rest =>
    match number w, operands rest with
    | some v, some (u :: us) => some (v :: u :: us)
    | _, _ => none
  | _ => none

/-- The line a mnemonic (in capitals) and its operands make. -/
def lineOf (mnemonic : List Char) (ops : List Nat) : Option AsmLine :=
  match ops with
  | [] =>
    if mnemonic = "NOP".toList then some .nop
    else if mnemonic = "LINEAR".toList then some .linear
    else if mnemonic = "COMBINE".toList then some .combine
    else if mnemonic = "HALFWORD".toList then some .halfword
    else if mnemonic = "EXPAND".toList then some .expand
    else if mnemonic = "READ".toList then some .read
    else if mnemonic = "RAW".toList then some .raw
    else none
  | [a] =>
    if mnemonic = "LOAD".toList then some (.load a)
    else if mnemonic = "UNIFORM".toList then some (.uniform a)
    else if mnemonic = "RESEED".toList then some (.reseed a)
    else none
  | [a, b] => if mnemonic = "SAMPLE".toList then some (.sample a b) else none
  | [a, b, c] => if mnemonic = "STREAM".toList then some (.stream a b c) else none
  | _ => none

/-- A line of text: a syntax error, an empty line, or a command. -/
def parseTokens : List Token → Option (Option AsmLine)
  | [] => some none
  | .word m :: rest =>
    match operands rest with
    | some ops => (lineOf (m.map Char.toUpper) ops).map some
    | none => none
  | .comma :: _ => none

/-- The transactions a line of text stands for; `none` where it is rejected (R81). -/
def assembleText (line : List Char) : Option (List Command) :=
  match parseTokens (tokens [] (stripComment line)) with
  | some (some l) => l.assemble
  | some none => some []
  | none => none

end Sys2Proof.Assembler
end

