-- ==== Sys2Proof/Safety.lean ====
section
/-! DEFINITION. What counts as a safe run, the invariants of the state, and the words that claims
about whole runs are stated in. -/

namespace Sys2Proof.Machine

/-- No command has erred since reset: the premise a host's claims take (60_exceptions.md R206;
92_eei_decisions.md D6). -/
def State.ErrorFree (s : State) : Prop := s.errSeen = false

/-- A reported error is also recorded for good, and `RESULT` reads 0 after it (R28, R204, R206). -/
def State.StatusConsistent (s : State) : Prop :=
  s.err ≠ .none → s.errSeen = true ∧ s.result = 0

/-- A SAMPLE in its rejection loop holds a range that is no power of two, the threshold of that range
and a candidate below it (R174). -/
def State.LoopConsistent (s : State) : Prop :=
  ∀ range threshold candidate, s.activity = .redrawing range threshold candidate →
    3 ≤ range.toNat ∧ range &&& (range - 1) ≠ 0 ∧
      threshold.toNat = 65536 % range.toNat ∧ candidate.toNat < threshold.toNat

/-- The host asserts no reset at this step. -/
def State.NoReset (s : State) : Prop := s.inputs.head? ≠ some .reset

/-- A run has ended: the last command of the host has completed (70_reset_and_hazards.md R234). -/
def State.RunEnded (s : State) : Prop := s.inputs = [] ∧ s.activity = .idle

/-- The host is silent, or its next command waits on the port. -/
def State.HostWaits (s : State) : Prop :=
  s.inputs = [] ∨ ∃ c rest, s.inputs = .present c :: rest

/-- The inputs left after a step in which no reset was asserted and no command was accepted: a pause
is used up. -/
def afterPause : List HostAction → List HostAction
  | .pause :: rest => rest
  | inputs => inputs

/-- The command occupies the engine for one step only: everything but a SAMPLE with a reseed or with
a range that is no power of two (R171 to R174; `range & (range - 1)` is 0 for 0, 1 and the powers
of two). -/
def SingleStep : Instr → Prop
  | .sample range reseed => reseed = 0 ∧ range &&& (range - 1) = 0
  | _ => True

/-- `k` steps of the machine, stopping at the first fault or refusal; the host's `Host.Core.run core`
in the machine's own words. -/
def runSteps : Nat → State → Host.Outcome State Fault Refusal
  | 0, s => .next s
  | k + 1, s =>
    match step s with
    | .next t => runSteps k t
    | .fault r => .fault r
    | .refused r => .refused r

/-- Commands executed one after the other, without the port. -/
def execAll : List Instr → State → Host.Outcome State Fault Refusal
  | [], s => .next s
  | i :: rest, s =>
    match exec i s with
    | .next t => execAll rest t
    | .fault r => .fault r
    | .refused r => .refused r

/-- The state after `n` Seed Expander steps (R178). -/
def expandTimes (p : Params) : Nat → GenState → GenState
  | 0, g => g
  | n + 1, g => expandTimes p n (expandState p g)

/-- The state after `n` halfwords were drawn. -/
def afterHalfwords (p : Params) : Nat → GenState → GenState
  | 0, g => g
  | n + 1, g => afterHalfwords p n (halfword p g).2

/-- The halfword drawn after `n` others. -/
def halfwordAt (p : Params) (n : Nat) (g : GenState) : Half := (halfword p (afterHalfwords p n g)).1

end Sys2Proof.Machine
end

