-- ==== Sys2Proof/Reference.lean ====
section
/-! DEFINITION. The composite rules R124, R147 and R162 once more, over natural numbers: exact
arithmetic, with every reduction modulo a power of two written out (00_scope.md R11). The machine's
meanings are built from the sub-steps R111 to R121 and R141 to R146 over bit vectors; statements
compare the two. -/

namespace Sys2Proof.Reference

open Sys2Proof.Machine

/-- The five fields as numbers. -/
structure Fields where
  shift : Nat
  carry : Nat
  current : Nat
  prev : Nat
  linear : Nat
  deriving DecidableEq, Repr

/-- The fields of a state of the machine. -/
def fieldsOf (g : GenState) : Fields :=
  ⟨g.shift.toNat, g.carry.toNat, g.current.toNat, g.prev.toNat, g.linear.toNat⟩

/-- `pack` (R22), each field shifted to its place in the layout. -/
def packed (l : Layout) (f : Fields) : Nat :=
  f.linear * 2 ^ l.linearLsb ||| f.prev * 2 ^ l.prevLsb ||| f.current * 2 ^ l.currentLsb |||
    f.carry * 2 ^ l.carryLsb ||| f.shift * 2 ^ l.shiftLsb

/-- `unpack` (R22). -/
def unpacked (l : Layout) (v : Nat) : Fields :=
  ⟨v / 2 ^ l.shiftLsb % 2 ^ 32, v / 2 ^ l.carryLsb % 2 ^ 8, v / 2 ^ l.currentLsb % 2 ^ 8,
    v / 2 ^ l.prevLsb % 2 ^ 8, v / 2 ^ l.linearLsb % 2 ^ 8⟩

/-- An entry of a table as numbers, in the order `(prev, current, carry)`. -/
def entryOf (t : Triple) : Nat × Nat × Nat := (t.prev.toNat, t.current.toNat, t.carry.toNat)

/-- The entry after the first one equal to `x`, the first following the last (R116, R141). -/
def nextEntry {α : Type} [DecidableEq α] (table : List α) (x : α) : Option α :=
  if x ∈ table then table[(table.findIdx (fun y => decide (y = x)) + 1) % table.length]? else none

/-- `LinearStep()` (R100). -/
def linearStep (f : Fields) : Fields := { f with linear := (29 + 73 * f.linear) % 2 ^ 8 }

/-- `if carry >= 210: carry <- carry - 210` (R114). -/
def below210 (carry : Nat) : Nat := if 210 ≤ carry then carry - 210 else carry

/-- `Combine()` as R124 writes it. -/
def combine (p : Params) (f0 : Fields) : Nat × Fields :=
  let f1 :=
    if f0.shift = 0 then
      let a := linearStep f0
      let b := linearStep a
      let c := linearStep b
      let d := linearStep c
      { d with shift := a.linear * 2 ^ 24 + b.linear * 2 ^ 16 + c.linear * 2 ^ 8 + d.linear }
    else f0
  let x1 := f1.shift ^^^ (f1.shift / 2 ^ 8)
  let x2 := x1 ^^^ (x1 * 2 ^ 9 % 2 ^ 32)
  let x3 := x2 ^^^ (x2 / 2 ^ 23)
  let f2 := { f1 with shift := x3, carry := below210 f1.carry }
  let f3 :=
    if f2.carry + f2.prev + f2.current = 0 ∨ f2.carry + f2.prev + f2.current = 719 then
      let a := linearStep f2
      let b := linearStep a
      let c := linearStep b
      { c with prev := a.linear, carry := below210 b.linear, current := c.linear }
    else f2
  let table := if f3.prev = 0 ∧ f3.current = 0 then p.startTable else p.cycleTable
  let t := (nextEntry (table.entries.map entryOf) (f3.prev, f3.current, f3.carry)).getD
    (f3.prev, f3.current, f3.carry)
  let product := 210 * t.1 + t.2.2
  let f4 := linearStep { f3 with prev := t.2.1, current := product % 2 ^ 8, carry := product / 2 ^ 8 }
  let l := f4.linear
  let sh := f4.shift / 2 ^ (8 * (l / 2 ^ p.selectors.amtLsb % 4)) % 2 ^ 8
  let c := f4.current
  let r :=
    match l / 2 ^ p.selectors.opLsb % 4 with
    | 0 => (sh + c) % 2 ^ 8
    | 1 => sh ^^^ c
    | 2 => (sh + 2 ^ 8 - c) % 2 ^ 8
    | _ => (c + 2 ^ 8 - sh) % 2 ^ 8
  (r, f4)

/-- `n` rounds of the 16-bit step (R144). -/
def rounds : Nat → Nat → Nat
  | 0, buf => buf
  | n + 1, buf => rounds n ((0x4321 + 0x6329 * buf) % 2 ^ 16)

/-- `rotl16` (R11): the bits that leave on the left come back on the right. -/
def rotated (x r : Nat) : Nat := x * 2 ^ r % 2 ^ 16 + x / 2 ^ (16 - r)

/-- `Halfword()` as R147 writes it. -/
def halfword (p : Params) (f0 : Fields) : Nat × Fields :=
  let f1 :=
    match nextEntry (p.triggers.values.map BitVec.toNat) (packed p.layout f0) with
    | some v => unpacked p.layout v
    | none => f0
  let d1 := combine p f1
  let d2 := combine p d1.2
  let d3 := combine p d2.2
  let b3 := d3.1
  let buf := rotated (rounds (b3 % 4 + 2) (d1.1 * 2 ^ 8 + d2.1)) (b3 / 2 ^ 4)
  (buf * (3 + 2 * (b3 / 2 ^ 2 % 4)) % 2 ^ 16, d3.2)

/-- `repeat n: acc <- acc ++ draw()`, the draws `width` bits wide (R160, R161). -/
def gather (draw : Fields → Nat × Fields) (width : Nat) : Nat → Nat × Fields → Nat × Fields
  | 0, d => d
  | n + 1, d => gather draw width n (d.1 * 2 ^ width + (draw d.2).1, (draw d.2).2)

/-- The value of `Expand()` as R162 writes it. -/
def expand (p : Params) (f : Fields) : Nat :=
  let bytes := gather (combine p) 8 8 (0, f)
  let halves := gather (halfword p) 16 4 (0, bytes.2)
  ((0x0123456789ABCDEF + 0x5851F42D4C957F2D * bytes.1) % 2 ^ 64) ^^^
    ((0x0FEDCBA987654321 + 0x5851F42D4C957F2D * halves.1) % 2 ^ 64)

end Sys2Proof.Reference
end

