-- ==== Sys2Proof/Certificates/Slice0/Obligations.lean ====
section
/-! DEFINITION. The statements for the provers, in the order of the spec's files. How the host's
actions stand in `State.inputs`, and that an accepted command runs in the step after its acceptance,
are the model's own (log entries 3 and 4); a statement that rests on them says so. -/

open Sys2Proof Sys2Proof.Machine

/-! ### State, `STATUS` and reset -/

/-- 10_state.md R34: every piece of state at its reset value, in `State.reset` and after the reset
event, which leaves the tables unchanged. -/
def Obligations.ResetLeavesTheResetValues : Prop :=
  (∀ s : State, s = State.reset ∨ (∃ s₀ : State, s = s₀.applyReset) →
    s.gen.shift = 0 ∧ s.gen.carry = 0 ∧ s.gen.current = 0 ∧ s.gen.prev = 0 ∧ s.gen.linear = 0 ∧
      s.result = 0 ∧ s.busy = false ∧ s.err = .none ∧ s.errSeen = false ∧ s.status = 0 ∧
      s.activity = .idle) ∧
  (∀ s₀ : State, s₀.applyReset.params = s₀.params) ∧ State.reset.params = Config.params

/-- 10_state.md R22 and 45_state_transfer.md R194: in every layout the codec loses nothing in either
direction; in the default layout the fields stand where R22 writes them; and a LOAD followed by a READ
returns the loaded value. -/
def Obligations.PackAndUnpackAreInverse : Prop :=
  (∀ (l : Layout) (v : Word64), (GenState.unpack l v).pack l = v) ∧
  (∀ (l : Layout) (g : GenState), GenState.unpack l (g.pack l) = g) ∧
  (∀ v : Word64, GenState.unpack Layout.default v =
    ⟨v.extractLsb' 0 32, v.extractLsb' 32 8, v.extractLsb' 40 8, v.extractLsb' 48 8,
      v.extractLsb' 56 8⟩) ∧
  (∀ g : GenState, g.pack Layout.default = g.linear ++ g.prev ++ g.current ++ g.carry ++ g.shift) ∧
  State.reset.params.layout = Layout.default ∧
  (∀ (s : State) (v : Word64), ∃ t u, exec (.load v) s = .next t ∧ exec .read t = .next u ∧
    u.result = v ∧ u.gen = t.gen)

/-- 10_state.md R28: the bits of the byte the host reads. `ERR` is never 3 and bits 7:4 read 0. -/
def Obligations.StatusByteLayout : Prop :=
  ∀ s : State,
    (s.status.getLsbD 0 = true ↔ s.activity ≠ .idle) ∧
    (s.status.extractLsb' 1 2 = match s.err with
      | .none => 0#2
      | .illegalOpcode => 1#2
      | .reservedNonzero => 2#2) ∧
    s.status.extractLsb' 1 2 ≠ 3#2 ∧
    s.status.getLsbD 3 = s.errSeen ∧ s.status.extractLsb' 4 4 = 0#4

/-- An invariant every step keeps, from every state that has it: after an error `ERRSEEN` is 1 and
`RESULT` reads 0 (60_exceptions.md R204, R206). -/
def Obligations.StatusStaysConsistent : Prop :=
  ∀ s t : State, s.StatusConsistent → step s = .next t → t.StatusConsistent

/-- An invariant every step keeps: a SAMPLE in its rejection loop holds the threshold of a range that
is no power of two, and a candidate below it (44_range_limiter.md R174). -/
def Obligations.RejectionLoopStaysConsistent : Prop :=
  ∀ s t : State, s.LoopConsistent → step s = .next t → t.LoopConsistent

/-- Both invariants hold right after reset. -/
def Obligations.ResetMeetsTheInvariants : Prop :=
  State.reset.StatusConsistent ∧ State.reset.LoopConsistent ∧ State.reset.ErrorFree

/-- 60_exceptions.md R206: a command that completes sets `ERR` to `NONE`; no command changes
`ERRSEEN`. While a command stays busy, `ERR` and `RESULT` are what they were. -/
def Obligations.CommandsClearErrAndKeepErrSeen : Prop :=
  ∀ (i : Instr) (s t : State), exec i s = .next t →
    t.errSeen = s.errSeen ∧ (t.busy = false → t.err = .none) ∧
    (t.busy = true → t.err = s.err ∧ t.result = s.result)

/-- `ERRSEEN` is cleared by reset only (10_state.md R28, 60_exceptions.md R206). -/
def Obligations.OnlyResetClearsErrSeen : Prop :=
  ∀ s t : State, s.errSeen = true → s.NoReset → step s = .next t → t.errSeen = true

/-- 70_reset_and_hazards.md R239: `RESULT` holds the previous result while a command executes and
changes only where a command completes; `ERR` likewise. -/
def Obligations.ResultChangesOnlyAtCompletion : Prop :=
  ∀ s t : State, s.NoReset → step s = .next t → s.busy = false ∨ t.busy = true →
    t.result = s.result ∧ t.err = s.err ∧ t.errSeen = s.errSeen

/-- 10_state.md R31: no step writes the tables, reset included. -/
def Obligations.TablesAreNeverWritten : Prop :=
  ∀ s t : State, step s = .next t → t.params = s.params

/-- 60_exceptions.md R200, 10_state.md R23: from every state, whatever the fields hold, a step gives a
next state; nothing faults and nothing is refused. -/
def Obligations.EveryStepGivesANextState : Prop := ∀ s : State, ∃ t, step s = .next t

/-! ### The command port -/

/-- A step runs the accepted command: it is exec of the decoded instruction, or the error of the
word. A pause of the host is used up; an assertion of reset is the case left out
(70_reset_and_hazards.md R235; log entries 3, 4). -/
def Obligations.StepRunsTheAcceptedCommand : Prop :=
  ∀ (s : State) (c : Command), s.activity = .accepted c → s.NoReset →
    (∀ i, decode c = .ok i → step s = exec i (s.withInputs (afterPause s.inputs))) ∧
    (∀ e, decode c = .error e →
      step s = .next ((s.withInputs (afterPause s.inputs)).raiseError e))

/-- The word placed for the host's check runs as the next command, whatever the state was. -/
def Obligations.FetchWordRunsNext : Prop :=
  ∀ (s : State) (nbits w : Nat) (i : Instr), decodeTableWord nbits w = some i →
    ∃ inputs, step (s.withFetchWord nbits w) =
      exec i { s with activity := .accepted (commandOfTableBits nbits w), inputs := inputs }

/-- 60_exceptions.md R204: the effect of an erroneous command, in full: `RESULT`, `ERR`, `ERRSEEN`,
idle, and nothing else. -/
def Obligations.ErroneousCommandEffect : Prop :=
  ∀ (s : State) (c : Command) (e : CommandError), decode c = .error e →
    ∃ t, runAccepted c s = .next t ∧ t.result = 0 ∧ t.errSeen = true ∧ t.busy = false ∧
      t.err.bits = (match e with | .illegalOpcode => 1#2 | .reservedNonzero => 2#2) ∧
      t.gen = s.gen ∧ t.params = s.params ∧ t.inputs = s.inputs

/-- 70_reset_and_hazards.md R235, R236: a command is accepted exactly when the engine is idle; until
then it waits on the port, neither lost nor acting: the step is the one a silent host would see. -/
def Obligations.WaitingCommandHasNoEffect : Prop :=
  ∀ (s : State) (c : Command) (rest : List HostAction), s.inputs = .present c :: rest →
    (s.busy = false → step s = .next { s with activity := .accepted c, inputs := rest }) ∧
    (s.busy = true → ∀ t, step { s with inputs := [] } = .next t →
      step s = .next { t with inputs := s.inputs })

/-- Reset acts at any step, whatever the engine is doing, and the engine accepts a command after it
(70_reset_and_hazards.md R230, R231; log entry 3). -/
def Obligations.ResetActsAtEveryStep : Prop :=
  ∀ (s : State) (rest : List HostAction), s.inputs = .reset :: rest →
    ∃ t, step s = .next t ∧ t.gen = ⟨0, 0, 0, 0, 0⟩ ∧ t.result = 0 ∧ t.status = 0 ∧
      t.params = s.params ∧ t.inputs = rest ∧
      (∀ c rest', rest = .present c :: rest' →
        step t = .next { t with activity := .accepted c, inputs := rest' })

/-- Nothing a command did survives a reset (70_reset_and_hazards.md R231): two engines built alike
are alike after it, whatever each was doing. -/
def Obligations.NothingSurvivesAReset : Prop :=
  ∀ s₁ s₂ : State, s₁.params = s₂.params → s₁.inputs = s₂.inputs → ¬ s₁.NoReset → step s₁ = step s₂

/-- An ended run stays as it is (70_reset_and_hazards.md R234; log entry 3). -/
def Obligations.EndedRunStays : Prop := ∀ s : State, s.RunEnded → step s = .next s

/-- Commands complete in the order presented, each seeing the effects of those before it
(20_memory.md R58, 70_reset_and_hazards.md R238): a list of commands that take one step each, run
through the port, does what executing them one after the other does. How the host's commands are held
and that each takes two steps is the model's own (log entries 3 and 4). -/
def Obligations.CommandsRunInOrder : Prop :=
  ∀ (is : List Instr) (s : State), (∀ i ∈ is, SingleStep i) → s.activity = .idle →
    s.inputs = is.map (fun i => .present (encode i)) →
    runSteps (2 * is.length) s = execAll is { s with inputs := [] }

/-- No result depends on `STATUS` (10_state.md R30), and two engines with the same generator state
running the same commands stay alike however long they run (00_scope.md R6). Only `RESULT`, which
a NOP keeps, may differ, and only if it did before. -/
def Obligations.NothingDependsOnStatus : Prop :=
  ∀ (k : Nat) (s₁ s₂ : State), s₁.gen = s₂.gen → s₁.activity = s₂.activity → s₁.params = s₂.params →
    s₁.inputs = s₂.inputs →
    ∃ t₁ t₂, runSteps k s₁ = .next t₁ ∧ runSteps k s₂ = .next t₂ ∧
      t₁.gen = t₂.gen ∧ t₁.activity = t₂.activity ∧ t₁.inputs = t₂.inputs ∧
      (s₁.result = s₂.result → t₁.result = t₂.result)

/-! ### Encoding -/

/-- The words of the spec's examples, 30_encoding.md R83, with a data operand of 0 where it is ignored. -/
def Obligations.ExampleWordsDecode : Prop :=
  decode ⟨0x0000000000000000, 0⟩ = .ok .nop ∧
  decode ⟨0x0000000000000001, 0⟩ = .ok .linear ∧
  decode ⟨0x0000000000000002, 0⟩ = .ok .combine ∧
  decode ⟨0x0000000000000003, 0⟩ = .ok .halfword ∧
  decode ⟨0x0000000000000004, 0⟩ = .ok .expand ∧
  decode ⟨0x0000000000000A05, 0⟩ = .ok (.sample 10 0) ∧
  decode ⟨0x0000000000000005, 0⟩ = .ok (.sample 0 0) ∧
  decode ⟨0x0000000003000105, 0⟩ = .ok (.sample 1 3) ∧
  decode ⟨0x00FFFFFFFFFFFF05, 0⟩ = .ok (.sample 65535 4294967295) ∧
  decode ⟨0x0000000000000006, 0x0123456789ABCDEF⟩ = .ok (.load 0x0123456789ABCDEF) ∧
  decode ⟨0x0000000000000007, 0⟩ = .ok .read ∧
  decode ⟨0x0000000000000008, 0⟩ = .error .illegalOpcode ∧
  decode ⟨0x0000000000000012, 0⟩ = .error .reservedNonzero ∧
  decode ⟨0x0100000000000005, 0⟩ = .error .reservedNonzero ∧
  decode ⟨0x00000000000000F5, 0⟩ = .error .reservedNonzero ∧
  decode ⟨0xFFFFFFFFFFFFFFFF, 0⟩ = .error .illegalOpcode

/-- 60_exceptions.md R202 and R203: which words raise which error, the opcode checked first (R205). -/
def Obligations.DecoderErrorsExactly : Prop :=
  ∀ c : Command,
    (decode c = .error .illegalOpcode ↔ 8 ≤ c.cmd.toNat % 16) ∧
    (decode c = .error .reservedNonzero ↔
      (c.cmd.toNat % 16 = 5 ∧ (c.cmd.toNat / 16 % 16 ≠ 0 ∨ c.cmd.toNat / 2 ^ 56 ≠ 0)) ∨
      (c.cmd.toNat % 16 < 8 ∧ c.cmd.toNat % 16 ≠ 5 ∧ c.cmd.toNat / 16 ≠ 0))

/-- Decoding the encoding of a command gives it back with every operand, and the data operand is read
by LOAD only (30_encoding.md R70 to R76). -/
def Obligations.DecodeOfEncode : Prop :=
  (∀ i : Instr, decode (encode i) = .ok i) ∧
  (∀ (i : Instr) (d : Word64), (∀ v, i ≠ .load v) → decode ⟨(encode i).cmd, d⟩ = .ok i)

/-- The other direction (30_encoding.md R79): a word the decoder accepts is the encoding of the one
command it names. -/
def Obligations.AcceptedWordIsTheEncoding : Prop :=
  ∀ (c : Command) (i : Instr), decode c = .ok i →
    c.cmd = (encode i).cmd ∧ (∀ v, i = .load v → v = c.data)

/-- 30_encoding.md R80: the number of legal command words. -/
def Obligations.NumberOfLegalWords : Prop :=
  ∀ d : Word64, Set.ncard {w : Word64 | ∃ i, decode ⟨w, d⟩ = .ok i} = 7 + 2 ^ 48

/-- 30_encoding.md R82: the pseudo-commands and their expansions. R81: what SAMPLE and LOAD emit for
operands in range, and that an operand out of its range is rejected, in STREAM too. (RAW, UNIFORM and
RESEED are a SAMPLE, in range or not.) -/
def Obligations.PseudoCommandsExpand : Prop :=
  AsmLine.raw.assemble = (AsmLine.sample 0 0).assemble ∧
  (∀ r, (AsmLine.uniform r).assemble = (AsmLine.sample r 0).assemble) ∧
  (∀ n, (AsmLine.reseed n).assemble = (AsmLine.sample 1 n).assemble) ∧
  (∀ seed n r, seed < 2 ^ 64 → n < 2 ^ 32 → r < 2 ^ 16 →
    (AsmLine.stream seed n r).assemble =
      some [encode (.load (BitVec.ofNat 64 seed)),
        encode (.sample (BitVec.ofNat 16 r) (BitVec.ofNat 32 n))]) ∧
  (∀ seed n r, (AsmLine.stream seed n r).assemble.isSome ↔ seed < 2 ^ 64 ∧ n < 2 ^ 32 ∧ r < 2 ^ 16) ∧
  (∀ r n, r ≤ 65535 → n ≤ 4294967295 →
    (AsmLine.sample r n).assemble = some [encode (.sample (BitVec.ofNat 16 r) (BitVec.ofNat 32 n))]) ∧
  (∀ r n, (AsmLine.sample r n).assemble.isSome ↔ r ≤ 65535 ∧ n ≤ 4294967295) ∧
  (∀ v, v < 2 ^ 64 → (AsmLine.load v).assemble = some [encode (.load (BitVec.ofNat 64 v))]) ∧
  (∀ v, (AsmLine.load v).assemble.isSome ↔ v < 2 ^ 64)

/-! ### NOP, LOAD, READ -/

/-- 45_state_transfer.md R191: NOP completes without error and changes nothing else. -/
def Obligations.NopCompletes : Prop :=
  ∀ s : State, exec .nop s = .next { s with err := .none, activity := .idle }

/-- LOAD takes the fields from the data operand, each from its place in the layout, and returns the
operand in `RESULT`; nothing else but `ERR` and `BUSY` changes (45_state_transfer.md R192, 10_state.md R22). -/
def Obligations.LoadResult : Prop :=
  ∀ (v : Word64) (s : State), ∃ g : GenState,
    exec (.load v) s = .next { s with gen := g, result := v, err := .none, activity := .idle } ∧
    Reference.fieldsOf g = Reference.unpacked s.params.layout v.toNat

/-- READ returns the packed state and leaves it alone (45_state_transfer.md R193, 10_state.md R22). -/
def Obligations.ReadResult : Prop :=
  ∀ s : State, ∃ r : Word64,
    exec .read s = .next { s with result := r, err := .none, activity := .idle } ∧
    r.toNat = Reference.packed s.params.layout (Reference.fieldsOf s.gen)

/-- After a LOAD, what an engine does next does not depend on what it did before (44_range_limiter.md
R182): the same command gives the same result and leaves the same state. -/
def Obligations.LoadMakesReproducible : Prop :=
  ∀ (v : Word64) (i : Instr) (s₁ s₂ : State), s₁.params = s₂.params →
    ∃ t₁ t₂ u₁ u₂, exec (.load v) s₁ = .next t₁ ∧ exec (.load v) s₂ = .next t₂ ∧
      exec i t₁ = .next u₁ ∧ exec i t₂ = .next u₂ ∧
      u₁.gen = u₂.gen ∧ u₁.result = u₂.result ∧ u₁.activity = u₂.activity

/-! ### Linear Byte Step -/

/-- LINEAR writes `linear * 73 + 29` to `linear` and to `RESULT` (40_linear_step.md R100, R101), and no
other field. -/
def Obligations.LinearResult : Prop :=
  ∀ s : State, exec .linear s = .next
    { s with
      gen := { s.gen with linear := s.gen.linear * 73 + 29 }
      result := (s.gen.linear * 73 + 29).setWidth 64
      err := .none
      activity := .idle }

/-- 40_linear_step.md R102: full period 256 from any start, and what follows for four consecutive
results. -/
def Obligations.LinearStepHasFullPeriod : Prop :=
  ∀ x : Byte,
    (∀ y : Byte, ∃ k, 1 ≤ k ∧ k ≤ 256 ∧ linearNext^[k] x = y) ∧
    linearNext^[257] x = linearNext x ∧
    (∀ j k, 1 ≤ j → j < k → k ≤ 256 → linearNext^[j] x ≠ linearNext^[k] x)

/-- 40_linear_step.md R103: bit `k` of successive linear bytes repeats with period exactly `2^(k+1)`. -/
def Obligations.LinearBitPeriods : Prop :=
  ∀ k < 8, ∀ m : Nat,
    (∀ x : Byte, (linearNext^[m] x).getLsbD k = x.getLsbD k) ↔ 2 ^ (k + 1) ∣ m

/-! ### Byte Combiner -/

/-- COMBINE does what the composition of 41_byte_combiner.md R124 says, over natural numbers, and
returns the combined byte; nothing but the generator state, `RESULT`, `ERR` and `BUSY` changes. -/
def Obligations.CombineMatchesItsRule : Prop :=
  ∀ s : State, ∃ (g : GenState) (r : Word64),
    exec .combine s = .next { s with gen := g, result := r, err := .none, activity := .idle } ∧
    (r.toNat, Reference.fieldsOf g) = Reference.combine s.params (Reference.fieldsOf s.gen)

/-- 10_state.md R24, 41_byte_combiner.md R126: after any `Combine()`, `shift` is not zero. -/
def Obligations.CombineLeavesShiftNonzero : Prop :=
  ∀ s t : State, exec .combine s = .next t → t.gen.shift ≠ 0

/-- 10_state.md R25: after any `Combine()`, `carry` is at most 209. -/
def Obligations.CombineLeavesCarryBelow210 : Prop :=
  ∀ s t : State, exec .combine s = .next t → t.gen.carry.toNat ≤ 209

/-- 10_state.md R26: the triple the multiply-with-carry update runs on is degenerate only where an escape
of the same call produced it: it is the three linear bytes of 41_byte_combiner.md R115, kept by the
table lookup, or the entry that R116 puts in the place of the triple it found. -/
def Obligations.UpdateMeetsNoStaleDegenerateTriple : Prop :=
  ∀ (p : Params) (g : GenState),
    combineState p g = linearStep (mwcUpdate (escapeCycle p (beforeLookup g))) ∧
    (degenerate (escapeCycle p (beforeLookup g)) = true →
      (degenerate (normalizeCarry (stepShift (refillShift g))) = true ∧
        successorIn (escapeTableFor p (beforeLookup g)).entries (tripleOf (beforeLookup g)) = none ∧
        tripleOf (escapeCycle p (beforeLookup g)) =
          { prev := linearNext (refillShift g).linear
            carry := carryBelow210 (linearNext (linearNext (refillShift g).linear))
            current := linearNext (linearNext (linearNext (refillShift g).linear)) }) ∨
      successorIn (escapeTableFor p (beforeLookup g)).entries (tripleOf (beforeLookup g)) =
        some (tripleOf (escapeCycle p (beforeLookup g))))

/-- The two degenerate sums are the two fixed points of the update (41_byte_combiner.md R115), for a
normalized carry. -/
def Obligations.DegeneratePointsAreTheFixedPoints : Prop :=
  ∀ g : GenState, g.carry.toNat ≤ 209 →
    (degenerate g = true ↔ tripleOf g = ⟨0, 0, 0⟩ ∨ tripleOf g = ⟨255, 255, 209⟩) ∧
    (degenerate g = true ↔ tripleOf (mwcUpdate g) = tripleOf g)

/-- 41_byte_combiner.md R127: where the triple is entry `i` of its table after sub-steps 3a and 3b, the
update runs on entry `(i+1) mod len`. -/
def Obligations.CycleEscapeContinuesFromTheSuccessor : Prop :=
  ∀ (s : State) (i : Nat) (e : Triple),
    (escapeTableFor s.params (beforeLookup s.gen)).entries[i]? = some (tripleOf (beforeLookup s.gen)) →
    (escapeTableFor s.params (beforeLookup s.gen)).entries[
      (i + 1) % (escapeTableFor s.params (beforeLookup s.gen)).entries.length]? = some e →
    ∃ t, exec .combine s = .next t ∧ t.gen.prev = e.current ∧
      t.gen.current.toNat = (210 * e.prev.toNat + e.carry.toNat) % 256 ∧
      t.gen.carry.toNat = (210 * e.prev.toNat + e.carry.toNat) / 256

/-- 41_byte_combiner.md R123: the number of linear bytes one `Combine()` uses. -/
def Obligations.LinearBytesPerCombine : Prop :=
  ∀ (p : Params) (g : GenState),
    (combine p g).2.linear = linearNext^[1 + (if g.shift = 0 then 4 else 0) +
      (if degenerate (normalizeCarry g) = true then 3 else 0)] g.linear

/-- The xorshift maps 0 to 0 and is a bijection, so nonzero values go to nonzero values
(41_byte_combiner.md R113, its first clause). -/
def Obligations.XorshiftIsABijection : Prop :=
  xorshift 0 = 0 ∧ Function.Bijective xorshift ∧ (∀ x, x ≠ 0 → xorshift x ≠ 0)

/-- 41_byte_combiner.md R122: truncating before or after the operator is the same. -/
def Obligations.TruncationBeforeOrAfterTheOperator : Prop :=
  ∀ (x : Word32) (c : Byte),
    CombineOp.sum.apply (x.setWidth 8) c = (x + c.setWidth 32).setWidth 8 ∧
    CombineOp.xor.apply (x.setWidth 8) c = (x ^^^ c.setWidth 32).setWidth 8 ∧
    CombineOp.shiftedMinusCurrent.apply (x.setWidth 8) c = (x - c.setWidth 32).setWidth 8 ∧
    CombineOp.currentMinusShifted.apply (x.setWidth 8) c = (c.setWidth 32 - x).setWidth 8

/-! ### Halfword Generator -/

/-- HALFWORD does what the composition of 42_halfword.md R147 says, over natural numbers; nothing but
the generator state, `RESULT`, `ERR` and `BUSY` changes. -/
def Obligations.HalfwordMatchesItsRule : Prop :=
  ∀ s : State, ∃ (g : GenState) (r : Word64),
    exec .halfword s = .next { s with gen := g, result := r, err := .none, activity := .idle } ∧
    (r.toNat, Reference.fieldsOf g) = Reference.halfword s.params (Reference.fieldsOf s.gen)

/-- 42_halfword.md R141: a state equal to a trigger is replaced by the next trigger, the first after
the last; any other state is left. -/
def Obligations.TriggerReplacesTheState : Prop :=
  ∀ (p : Params) (g : GenState),
    (∀ i < 4, p.triggers.values[i]? = some (g.pack p.layout) →
      p.triggers.values[(i + 1) % 4]? = some ((checkTrigger p g).pack p.layout)) ∧
    (g.pack p.layout ∉ p.triggers.values → checkTrigger p g = g)

/-- For a fixed control byte the map from the buffer to the halfword is a bijection (42_halfword.md
R147). -/
def Obligations.MixingTheBufferIsABijection : Prop :=
  ∀ b3 : Byte, Function.Bijective (mixBuffer b3)

/-- The 16-bit round has full period 65536 (42_halfword.md R144). -/
def Obligations.BufferRoundHasFullPeriod : Prop :=
  ∀ x : Half, bufferRound^[65536] x = x ∧ ∀ k, 0 < k → k < 65536 → bufferRound^[k] x ≠ x

/-! ### Seed Expander -/

/-- EXPAND does what 43_seed_expander.md R162 says, over natural numbers: the new state is the value
returned; nothing but the generator state, `RESULT`, `ERR` and `BUSY` changes. -/
def Obligations.ExpandMatchesItsRule : Prop :=
  ∀ s : State, ∃ r : Word64,
    exec .expand s = .next
      { s with gen := GenState.unpack s.params.layout r, result := r, err := .none, activity := .idle } ∧
    r.toNat = Reference.expand s.params (Reference.fieldsOf s.gen)

/-- Each 64-bit step of the Seed Expander is a bijection (43_seed_expander.md R164). -/
def Obligations.ExpanderStepsAreBijections : Prop :=
  Function.Bijective expandFirst ∧ Function.Bijective expandSecond

/-! ### Range Limiter and SAMPLE -/

/-- `SAMPLE 1, 0` returns 0 and leaves the state unchanged (44_range_limiter.md R171, R180). -/
def Obligations.SampleOneConsumesNothing : Prop :=
  ∀ s : State, exec (.sample 1 0) s =
    .next { s with result := 0, err := .none, activity := .idle }

/-- `SAMPLE 0, 0` returns one raw halfword (44_range_limiter.md R170). -/
def Obligations.SampleZeroIsRaw : Prop :=
  ∀ s : State, exec (.sample 0 0) s = .next
    { s with
      gen := (halfword s.params s.gen).2
      result := (halfword s.params s.gen).1.setWidth 64
      err := .none
      activity := .idle }

/-- A range that is a power of two from 2 to 32768 draws one halfword and masks it
(44_range_limiter.md R172). The same 16-bit test holds for range 0, where the mask keeps the halfword. -/
def Obligations.SamplePowerOfTwoMasks : Prop :=
  ((0 : Half) &&& (0 - 1) = 0 ∧ ∀ h : Half, h &&& (0 - 1) = h) ∧
  ∀ (s : State) (k : Nat), 1 ≤ k → k ≤ 15 →
    BitVec.ofNat 16 (2 ^ k) &&& (BitVec.ofNat 16 (2 ^ k) - 1) = 0 ∧
    exec (.sample (BitVec.ofNat 16 (2 ^ k)) 0) s = .next
      { s with
        gen := (halfword s.params s.gen).2
        result := ((halfword s.params s.gen).1 &&& BitVec.ofNat 16 (2 ^ k - 1)).setWidth 64
        err := .none
        activity := .idle }

/-- The first draw for any range from 2 (44_range_limiter.md R172, R174, R175): a halfword not below
`65536 mod range` is accepted and reduced, one below it is held and the engine stays busy. For a
power of two the threshold is 0 and the remainder is the mask. -/
def Obligations.SampleFirstDraw : Prop :=
  ∀ (s : State) (range : Half), 2 ≤ range.toNat →
    (65536 % range.toNat ≤ (halfword s.params s.gen).1.toNat →
      exec (.sample range 0) s = .next
        { s with
          gen := (halfword s.params s.gen).2
          result := BitVec.ofNat 64 ((halfword s.params s.gen).1.toNat % range.toNat)
          err := .none
          activity := .idle }) ∧
    ((halfword s.params s.gen).1.toNat < 65536 % range.toNat →
      exec (.sample range 0) s = .next
        { s with
          gen := (halfword s.params s.gen).2
          activity := .redrawing range (BitVec.ofNat 16 (65536 % range.toNat))
            (halfword s.params s.gen).1 })

/-- SAMPLE with a reseed count that is not zero does one Seed Expander step and keeps one fewer to do,
with `RESULT` and `STATUS.ERR` as they were; the next step goes on as a SAMPLE with that count does
(44_range_limiter.md R178; that each Seed Expander step is a step of the machine is the model's own,
log entry 4). -/
def Obligations.SampleReseedsFirst : Prop :=
  (∀ (s : State) (range : Half) (reseed : Word32), reseed ≠ 0 →
    ∃ g : GenState, (g.pack s.params.layout).toNat = Reference.expand s.params (Reference.fieldsOf s.gen) ∧
      exec (.sample range reseed) s = .next
        { s with gen := g, activity := .reseeding range (reseed - 1) }) ∧
  (∀ (s : State) (range : Half) (remaining : Word32), s.activity = .reseeding range remaining →
    s.NoReset → step s = exec (.sample range remaining) (s.withInputs (afterPause s.inputs)))

/-- SAMPLE, whole (44_range_limiter.md R173, R178): from its acceptance, with no reset and no pause,
for any range from 2 it does its reseeds, redraws while the halfword is below `65536 mod range`, and
completes with the first one that is not, reduced. The number of steps is the model's own (log
entry 4). -/
def Obligations.SampleCompletesWithTheFirstAcceptedHalfword : Prop :=
  ∀ (s : State) (range : Half) (reseed : Word32) (k : Nat),
    s.activity = .accepted (encode (.sample range reseed)) → s.HostWaits → 2 ≤ range.toNat →
    (∀ j < k, (halfwordAt s.params j (expandTimes s.params reseed.toNat s.gen)).toNat
      < 65536 % range.toNat) →
    65536 % range.toNat
      ≤ (halfwordAt s.params k (expandTimes s.params reseed.toNat s.gen)).toNat →
    runSteps (reseed.toNat + 1 + k) s = .next
      { s with
        gen := afterHalfwords s.params (k + 1) (expandTimes s.params reseed.toNat s.gen)
        result := BitVec.ofNat 64
          ((halfwordAt s.params k (expandTimes s.params reseed.toNat s.gen)).toNat % range.toNat)
        err := .none
        activity := .idle }

/-- SAMPLE with range 0 or 1, whole: the reseeds, then one raw halfword, or no draw and the result 0
(44_range_limiter.md R170, R171, R178; log entry 4). -/
def Obligations.SampleReseedsThenRawOrNothing : Prop :=
  ∀ (s : State) (reseed : Word32), s.HostWaits →
    (s.activity = .accepted (encode (.sample 1 reseed)) →
      runSteps (reseed.toNat + 1) s = .next
        { s with
          gen := expandTimes s.params reseed.toNat s.gen
          result := 0
          err := .none
          activity := .idle }) ∧
    (s.activity = .accepted (encode (.sample 0 reseed)) →
      runSteps (reseed.toNat + 1) s = .next
        { s with
          gen := afterHalfwords s.params 1 (expandTimes s.params reseed.toNat s.gen)
          result := (halfwordAt s.params 0 (expandTimes s.params reseed.toNat s.gen)).setWidth 64
          err := .none
          activity := .idle })

/-- While every halfword drawn is below the threshold, SAMPLE keeps drawing and the engine stays busy
with `RESULT` and `STATUS.ERR` as they were (44_range_limiter.md R177; log entry 4). -/
def Obligations.SampleStaysBusyWhileRejecting : Prop :=
  ∀ (s : State) (range : Half) (reseed : Word32) (m : Nat),
    s.activity = .accepted (encode (.sample range reseed)) → s.HostWaits → 2 ≤ range.toNat →
    (∀ j ≤ m, (halfwordAt s.params j (expandTimes s.params reseed.toNat s.gen)).toNat
      < 65536 % range.toNat) →
    runSteps (reseed.toNat + 1 + m) s = .next
      { s with
        gen := afterHalfwords s.params (m + 1) (expandTimes s.params reseed.toNat s.gen)
        activity := .redrawing range (BitVec.ofNat 16 (65536 % range.toNat))
          (halfwordAt s.params m (expandTimes s.params reseed.toNat s.gen)) }

/-- A SAMPLE need not complete (44_range_limiter.md R177): there are parameters and a state from which
it stays busy for ever. -/
def Obligations.SomeSampleNeverCompletes : Prop :=
  ∃ s : State, s.activity = .accepted (encode (.sample 32769 0)) ∧ s.inputs = [] ∧
    ∀ k, ∃ t, runSteps k s = .next t ∧ t.busy = true

/-- 44_range_limiter.md R176: the result of a completed SAMPLE is below its range from 2 on, 0 for range
1 and a 16-bit value for range 0, whether it completes at its first draw, after reseeds or out of the
rejection loop (the three states are the model's own, log entry 4). -/
def Obligations.SampleResultIsInRange : Prop :=
  ∀ (s t : State) (range : Half), s.NoReset →
    ((∃ reseed, s.activity = .accepted (encode (.sample range reseed))) ∨
      (∃ n, s.activity = .reseeding range n) ∨
      (∃ th c, s.activity = .redrawing range th c)) →
    step s = .next t → t.busy = false →
      t.result.toNat < if range = 0 then 65536 else range.toNat

/-- Rejection makes the result exactly uniform (44_range_limiter.md R175): for a range that is no power
of two, the 16-bit values not below the machine's threshold fall on every result below `range` equally
often, and there are `65536 - t` of them. -/
def Obligations.AcceptedHalfwordsAreUniform : Prop :=
  ∀ range : Half, 3 ≤ range.toNat → range &&& (range - 1) ≠ 0 →
    (rejectionThreshold range).toNat < range.toNat ∧ 1 ≤ (rejectionThreshold range).toNat ∧
    ((Finset.range 65536).filter (fun h => (rejectionThreshold range).toNat ≤ h)).card
      = 65536 - (rejectionThreshold range).toNat ∧
    range.toNat ∣ 65536 - (rejectionThreshold range).toNat ∧
    ∀ r < range.toNat,
      ((Finset.range 65536).filter
        (fun h => (rejectionThreshold range).toNat ≤ h ∧ h % range.toNat = r)).card
      = 65536 / range.toNat

/-! ### The text of the assembly language -/

/-- 30_encoding.md R81: the text of a line, written as the rule writes it. A comment is ignored; numbers
are decimal or hexadecimal; a mnemonic may be in capitals or not; the line emits its command with the
operands' values where they are in range, and is rejected otherwise. The mnemonics of R82 likewise. -/
def Obligations.AssemblyTextIsRead : Prop :=
  (∀ line comment : List Char,
    Assembler.assembleText (line ++ ';' :: comment) = Assembler.assembleText line) ∧
  (∀ n : Nat, Assembler.number (Nat.toDigits 10 n) = some n ∧
    Assembler.number ('0' :: 'x' :: Nat.toDigits 16 n) = some n) ∧
  (∀ (m : List Char) (i : Instr), Assembler.isWord m = true →
    (m.map Char.toUpper, i) ∈
      [("NOP".toList, Instr.nop), ("LINEAR".toList, .linear), ("COMBINE".toList, .combine),
        ("HALFWORD".toList, .halfword), ("EXPAND".toList, .expand), ("READ".toList, .read),
        ("RAW".toList, .sample 0 0)] →
    Assembler.assembleText m = some [encode i]) ∧
  (∀ (m a : List Char) (v : Nat), Assembler.isWord m = true → Assembler.isWord a = true →
    Assembler.number a = some v →
    (m.map Char.toUpper = "LOAD".toList → Assembler.assembleText (m ++ ' ' :: a) =
      if v < 2 ^ 64 then some [encode (.load (BitVec.ofNat 64 v))] else none) ∧
    (m.map Char.toUpper = "UNIFORM".toList → Assembler.assembleText (m ++ ' ' :: a) =
      if v < 2 ^ 16 then some [encode (.sample (BitVec.ofNat 16 v) 0)] else none) ∧
    (m.map Char.toUpper = "RESEED".toList → Assembler.assembleText (m ++ ' ' :: a) =
      if v < 2 ^ 32 then some [encode (.sample 1 (BitVec.ofNat 32 v))] else none)) ∧
  (∀ (m a b : List Char) (r n : Nat), Assembler.isWord m = true → Assembler.isWord a = true →
    Assembler.isWord b = true → Assembler.number a = some r → Assembler.number b = some n →
    m.map Char.toUpper = "SAMPLE".toList →
    Assembler.assembleText (m ++ ' ' :: (a ++ ',' :: ' ' :: b)) =
      if r < 2 ^ 16 ∧ n < 2 ^ 32 then some [encode (.sample (BitVec.ofNat 16 r) (BitVec.ofNat 32 n))]
      else none) ∧
  (∀ (m a b c : List Char) (seed n r : Nat), Assembler.isWord m = true → Assembler.isWord a = true →
    Assembler.isWord b = true → Assembler.isWord c = true → Assembler.number a = some seed →
    Assembler.number b = some n → Assembler.number c = some r →
    m.map Char.toUpper = "STREAM".toList →
    Assembler.assembleText (m ++ ' ' :: (a ++ ',' :: ' ' :: (b ++ ',' :: ' ' :: c))) =
      if seed < 2 ^ 64 ∧ n < 2 ^ 32 ∧ r < 2 ^ 16 then
        some [encode (.load (BitVec.ofNat 64 seed)),
          encode (.sample (BitVec.ofNat 16 r) (BitVec.ofNat 32 n))]
      else none)
end

