-- ==== Sys2Proof/Laws/Codec.lean ====
section
/-! SUPPORT. What a layout of the state guarantees, and the bits of a packed value. -/

namespace Sys2Proof

/-- Every field lies inside the 64 bits. -/
theorem Layout.fits (l : Layout) : l.shiftLsb + 32 ≤ 64 ∧ l.carryLsb + 8 ≤ 64 ∧ l.currentLsb + 8 ≤ 64 ∧
    l.prevLsb + 8 ≤ 64 ∧ l.linearLsb + 8 ≤ 64 := by
  have h := l.ok
  simp only [layoutOk, Bool.and_eq_true, decide_eq_true_eq] at h
  exact ⟨h.1.1.1.1.1, h.1.1.1.1.2, h.1.1.1.2, h.1.1.2, h.1.2⟩

/-- Every bit lies in exactly one field. -/
theorem Layout.tiles (l : Layout) {i : Nat} (hi : i < 64) :
    fieldsAt l.shiftLsb l.carryLsb l.currentLsb l.prevLsb l.linearLsb i = 1 := by
  have h := l.ok
  simp only [layoutOk, Bool.and_eq_true, List.all_eq_true, decide_eq_true_eq, List.mem_range] at h
  exact h.2 i hi

namespace Machine

/-- A field shifted to its place: its own bits there, zeros elsewhere. -/
theorem getLsbD_zext64_shiftLeft {n : Nat} (x : BitVec n) (lsb : Nat) {i : Nat} (hi : i < 64) :
    (zext64 x <<< lsb).getLsbD i = (decide (lsb ≤ i) && x.getLsbD (i - lsb)) := by
  have h : i - lsb < 64 := by omega
  rw [zext64, BitVec.getLsbD_shiftLeft, BitVec.getLsbD_setWidth]
  by_cases hl : lsb ≤ i
  · simp [hi, h, hl, Nat.not_lt.mpr hl]
  · simp [hl, Nat.lt_of_not_le hl]

/-- A bit of the packed value is a bit of one of the fields. -/
theorem GenState.getLsbD_pack (l : Layout) (g : GenState) {i : Nat} (hi : i < 64) :
    (g.pack l).getLsbD i =
      ((decide (l.linearLsb ≤ i) && g.linear.getLsbD (i - l.linearLsb)) ||
        (decide (l.prevLsb ≤ i) && g.prev.getLsbD (i - l.prevLsb)) ||
        (decide (l.currentLsb ≤ i) && g.current.getLsbD (i - l.currentLsb)) ||
        (decide (l.carryLsb ≤ i) && g.carry.getLsbD (i - l.carryLsb)) ||
        (decide (l.shiftLsb ≤ i) && g.shift.getLsbD (i - l.shiftLsb))) := by
  unfold GenState.pack
  simp only [BitVec.getLsbD_or, getLsbD_zext64_shiftLeft _ _ hi]

end Machine

end Sys2Proof
end

