-- ==== Sys2Proof/Laws/Decode.lean ====
section
/-! SUPPORT. The fields of the words the encoder makes, so that no proof about decoding unfolds a
concatenation of bits. -/

namespace Sys2Proof

theorem opcodeField_bareWord (opc : BitVec 4) : opcodeField (bareWord opc) = opc := by
  ext i hi
  simp only [opcodeField, bareWord, BitVec.getElem_extractLsb', BitVec.getLsbD_append]
  simp [hi]

theorem aboveOpcodeField_bareWord (opc : BitVec 4) : aboveOpcodeField (bareWord opc) = 0 := by
  ext i hi
  simp only [aboveOpcodeField, bareWord, BitVec.getElem_extractLsb', BitVec.getLsbD_append]
  simp

/-- The five fields of SAMPLE's word, in the order of R71. -/
theorem fields_sampleWord (range : Half) (reseed : Word32) :
    opcodeField (sampleWord range reseed) = 5 ∧ reserved0Field (sampleWord range reseed) = 0 ∧
      rangeField (sampleWord range reseed) = range ∧ reseedField (sampleWord range reseed) = reseed ∧
      reserved1Field (sampleWord range reseed) = 0 := by
  simp only [sampleWord, opcodeField, reserved0Field, reserved1Field, rangeField, reseedField]
  refine ⟨?_, ?_, ?_, ?_, ?_⟩
  all_goals
    ext i hi
    simp only [BitVec.getElem_extractLsb', BitVec.getLsbD_append]
    (repeat' split_ifs) <;> first | omega | skip
    all_goals (try simp [BitVec.getLsbD_eq_getElem, hi])
    all_goals (try (rw [BitVec.getLsbD_eq_getElem (by omega)]; congr 1; omega))

end Sys2Proof
end

