-- ==== Sys2Proof/Laws/State.lean ====
section
/-! SUPPORT. One lemma per field of `State` and per update of the shared operations, so that no later
proof unfolds a record update; and the view of `STATUS.BUSY` after each. -/

namespace Sys2Proof.Machine

@[simp] theorem State.withGen_gen (s : State) (g : GenState) : (s.withGen g).gen = g := rfl
@[simp] theorem State.withGen_result (s : State) (g : GenState) : (s.withGen g).result = s.result := rfl
@[simp] theorem State.withGen_err (s : State) (g : GenState) : (s.withGen g).err = s.err := rfl
@[simp] theorem State.withGen_errSeen (s : State) (g : GenState) : (s.withGen g).errSeen = s.errSeen := rfl
@[simp] theorem State.withGen_activity (s : State) (g : GenState) : (s.withGen g).activity = s.activity := rfl
@[simp] theorem State.withGen_params (s : State) (g : GenState) : (s.withGen g).params = s.params := rfl
@[simp] theorem State.withGen_inputs (s : State) (g : GenState) : (s.withGen g).inputs = s.inputs := rfl

@[simp] theorem State.complete_gen (s : State) (r : Word64) : (s.complete r).gen = s.gen := rfl
@[simp] theorem State.complete_result (s : State) (r : Word64) : (s.complete r).result = r := rfl
@[simp] theorem State.complete_err (s : State) (r : Word64) : (s.complete r).err = .none := rfl
@[simp] theorem State.complete_errSeen (s : State) (r : Word64) : (s.complete r).errSeen = s.errSeen := rfl
@[simp] theorem State.complete_activity (s : State) (r : Word64) : (s.complete r).activity = .idle := rfl
@[simp] theorem State.complete_params (s : State) (r : Word64) : (s.complete r).params = s.params := rfl
@[simp] theorem State.complete_inputs (s : State) (r : Word64) : (s.complete r).inputs = s.inputs := rfl

@[simp] theorem State.raiseError_gen (s : State) (e : CommandError) : (s.raiseError e).gen = s.gen := rfl
@[simp] theorem State.raiseError_result (s : State) (e : CommandError) : (s.raiseError e).result = 0 := rfl
@[simp] theorem State.raiseError_err (s : State) (e : CommandError) : (s.raiseError e).err = errCodeOf e := rfl
@[simp] theorem State.raiseError_errSeen (s : State) (e : CommandError) : (s.raiseError e).errSeen = true := rfl
@[simp] theorem State.raiseError_activity (s : State) (e : CommandError) : (s.raiseError e).activity = .idle := rfl
@[simp] theorem State.raiseError_params (s : State) (e : CommandError) : (s.raiseError e).params = s.params := rfl
@[simp] theorem State.raiseError_inputs (s : State) (e : CommandError) : (s.raiseError e).inputs = s.inputs := rfl

@[simp] theorem State.accept_gen (s : State) (c : Command) : (s.accept c).gen = s.gen := rfl
@[simp] theorem State.accept_result (s : State) (c : Command) : (s.accept c).result = s.result := rfl
@[simp] theorem State.accept_err (s : State) (c : Command) : (s.accept c).err = s.err := rfl
@[simp] theorem State.accept_errSeen (s : State) (c : Command) : (s.accept c).errSeen = s.errSeen := rfl
@[simp] theorem State.accept_activity (s : State) (c : Command) : (s.accept c).activity = .accepted c := rfl
@[simp] theorem State.accept_params (s : State) (c : Command) : (s.accept c).params = s.params := rfl
@[simp] theorem State.accept_inputs (s : State) (c : Command) : (s.accept c).inputs = s.inputs := rfl

@[simp] theorem State.applyReset_gen (s : State) : s.applyReset.gen = GenState.zero := rfl
@[simp] theorem State.applyReset_result (s : State) : s.applyReset.result = 0 := rfl
@[simp] theorem State.applyReset_err (s : State) : s.applyReset.err = .none := rfl
@[simp] theorem State.applyReset_errSeen (s : State) : s.applyReset.errSeen = false := rfl
@[simp] theorem State.applyReset_activity (s : State) : s.applyReset.activity = .idle := rfl
@[simp] theorem State.applyReset_params (s : State) : s.applyReset.params = s.params := rfl
@[simp] theorem State.applyReset_inputs (s : State) : s.applyReset.inputs = s.inputs := rfl

@[simp] theorem State.withInputs_gen (s : State) (rest : List HostAction) : (s.withInputs rest).gen = s.gen := rfl
@[simp] theorem State.withInputs_result (s : State) (rest : List HostAction) : (s.withInputs rest).result = s.result := rfl
@[simp] theorem State.withInputs_err (s : State) (rest : List HostAction) : (s.withInputs rest).err = s.err := rfl
@[simp] theorem State.withInputs_errSeen (s : State) (rest : List HostAction) : (s.withInputs rest).errSeen = s.errSeen := rfl
@[simp] theorem State.withInputs_activity (s : State) (rest : List HostAction) : (s.withInputs rest).activity = s.activity := rfl
@[simp] theorem State.withInputs_params (s : State) (rest : List HostAction) : (s.withInputs rest).params = s.params := rfl
@[simp] theorem State.withInputs_inputs (s : State) (rest : List HostAction) : (s.withInputs rest).inputs = rest := rfl

@[simp] theorem State.busy_eq_false_iff (s : State) : s.busy = false ↔ s.activity = .idle := by
  simp [State.busy]

@[simp] theorem State.busy_eq_true_iff (s : State) : s.busy = true ↔ s.activity ≠ .idle := by
  simp [State.busy]

theorem State.withInputs_self (s : State) : s.withInputs s.inputs = s := rfl

theorem State.complete_result_self (s : State) :
    s.complete s.result = { s with err := .none, activity := .idle } := rfl

end Sys2Proof.Machine
end

