-- ==== Sys2Proof/Laws/Ops.lean ====
section
/-! SUPPORT. What each shared operation and each step can do, said once: later proofs cite these
lemmas and do not unfold the operations. -/

namespace Sys2Proof.Machine

/-- What a command can do to the state: complete, or (SAMPLE only) go on reseeding or redrawing. In
every case the tables, the host's actions and `ERRSEEN` are left alone. -/
inductive Effect (s : State) : State → Prop
  | completes (g : GenState) (r : Word64) : Effect s ((s.withGen g).complete r)
  | reseeds (g : GenState) (range : Half) (n : Word32) :
    Effect s { s.withGen g with activity := .reseeding range n }
  | redraws (g : GenState) (range t c : Half) (ht : c < t) :
    Effect s { s.withGen g with activity := .redrawing range t c }

theorem Effect.params_eq {s t : State} (h : Effect s t) : t.params = s.params := by cases h <;> rfl

theorem Effect.inputs_eq {s t : State} (h : Effect s t) : t.inputs = s.inputs := by cases h <;> rfl

theorem Effect.errSeen_eq {s t : State} (h : Effect s t) : t.errSeen = s.errSeen := by cases h <;> rfl

/-- A command that completes clears `ERR`; one that stays busy leaves `ERR` and `RESULT`. -/
theorem Effect.completed_or_busy {s t : State} (h : Effect s t) :
    (t.activity = .idle ∧ t.err = .none) ∨
      (t.activity ≠ .idle ∧ t.err = s.err ∧ t.result = s.result) := by
  cases h <;> simp

/-- The rejection test completes with the remainder, or holds a candidate below the threshold. -/
theorem State.testCandidate_eq (s : State) (range t c : Half) :
    s.testCandidate range t c = if c < t then { s with activity := .redrawing range t c }
      else s.complete (zext64 (c % range)) := rfl

theorem effect_testCandidate (s : State) (g : GenState) (range t c : Half) :
    Effect s ((s.withGen g).testCandidate range t c) := by
  rw [State.testCandidate_eq]
  split
  · exact .redraws g range t c ‹_›
  · exact .completes g _

theorem effect_limitDrawn (s : State) (g : GenState) (range h : Half) :
    Effect s ((s.withGen g).limitDrawn range h) := by
  unfold State.limitDrawn
  split_ifs
  · exact .completes g _
  · exact .completes g _
  · exact effect_testCandidate s g range _ h
  · exact .completes g _

theorem effect_limit (s : State) (range : Half) : Effect s (s.limit range) := by
  unfold State.limit
  split_ifs
  · exact .completes s.gen 0
  · exact effect_limitDrawn s _ range _

theorem effect_sampleFrom (s : State) (range : Half) (n : Word32) : Effect s (s.sampleFrom range n) := by
  unfold State.sampleFrom
  split_ifs
  · exact effect_limit s range
  · exact .reseeds _ range _

theorem effect_redraw (s : State) (range t c : Half) : Effect s (s.redraw range t c) := by
  unfold State.redraw
  split_ifs
  · exact effect_testCandidate s _ range t _
  · exact .completes s.gen _

/-- Every command gives a next state, of one of the forms of `Effect`. -/
theorem exec_next (i : Instr) (s : State) : ∃ t, exec i s = .next t ∧ Effect s t := by
  cases i with
  | nop => exact ⟨_, rfl, .completes s.gen s.result⟩
  | linear => exact ⟨_, rfl, .completes _ _⟩
  | combine => exact ⟨_, rfl, .completes _ _⟩
  | halfword => exact ⟨_, rfl, .completes _ _⟩
  | expand => exact ⟨_, rfl, .completes _ _⟩
  | sample range reseed => exact ⟨_, rfl, effect_sampleFrom s range reseed⟩
  | load value => exact ⟨_, rfl, .completes _ _⟩
  | read => exact ⟨_, rfl, .completes s.gen _⟩

theorem exec_effect {i : Instr} {s t : State} (h : exec i s = .next t) : Effect s t := by
  obtain ⟨u, hu, he⟩ := exec_next i s
  rw [hu] at h
  injection h with h
  exact h ▸ he

/-- What an engine that is not reset does in one step on its own: nothing, raise the error of its
command, or an effect. -/
theorem advance_cases (s : State) :
    ∃ t, advance s = .next t ∧
      ((s.activity = .idle ∧ t = s) ∨
        (s.activity ≠ .idle ∧ ((∃ e, t = s.raiseError e) ∨ Effect s t))) := by
  unfold advance
  split
  · next h => exact ⟨s, rfl, .inl ⟨h, rfl⟩⟩
  · next c h =>
    unfold runAccepted
    split
    · next i _ =>
      obtain ⟨t, ht, he⟩ := exec_next i s
      exact ⟨t, ht, .inr ⟨by simp [h], .inr he⟩⟩
    · next e _ => exact ⟨_, rfl, .inr ⟨by simp [h], .inl ⟨e, rfl⟩⟩⟩
  · next range n h => exact ⟨_, rfl, .inr ⟨by simp [h], .inr (effect_sampleFrom s range n)⟩⟩
  · next range t c h => exact ⟨_, rfl, .inr ⟨by simp [h], .inr (effect_redraw s range t c)⟩⟩

/-- The engine's own work does not look at the host's actions. -/
theorem limitDrawn_withInputs (s : State) (rest : List HostAction) (range h : Half) :
    (s.withInputs rest).limitDrawn range h = (s.limitDrawn range h).withInputs rest := by
  unfold State.limitDrawn State.testCandidate
  split_ifs <;> rfl

theorem sampleFrom_withInputs (s : State) (rest : List HostAction) (range : Half) (n : Word32) :
    (s.withInputs rest).sampleFrom range n = (s.sampleFrom range n).withInputs rest := by
  unfold State.sampleFrom State.limit
  split_ifs
  · rfl
  · exact limitDrawn_withInputs (s.withGen (halfword s.params s.gen).2) rest range _
  · rfl

theorem redraw_withInputs (s : State) (rest : List HostAction) (range t c : Half) :
    (s.withInputs rest).redraw range t c = (s.redraw range t c).withInputs rest := by
  unfold State.redraw State.testCandidate
  rw [State.withInputs_params, State.withInputs_gen]
  split_ifs <;> rfl

theorem exec_withInputs {i : Instr} {s t : State} (rest : List HostAction) (h : exec i s = .next t) :
    exec i (s.withInputs rest) = .next (t.withInputs rest) := by
  cases i with
  | sample range reseed =>
    injection h with h
    rw [← h]
    exact congrArg _ (sampleFrom_withInputs s rest range reseed)
  | _ => injection h with h; rw [← h]; rfl

theorem advance_withInputs {s t : State} (rest : List HostAction) (h : advance s = .next t) :
    advance (s.withInputs rest) = .next (t.withInputs rest) := by
  unfold advance at *
  rw [State.withInputs_activity]
  split at h
  · injection h with h; rw [h]
  · next c _ =>
    unfold runAccepted at *
    split at h
    · exact exec_withInputs rest h
    · injection h with h; rw [← h]; rfl
  · injection h with h; rw [← h, sampleFrom_withInputs]
  · injection h with h; rw [← h, redraw_withInputs]

/-- What one step can do: a reset; the acceptance of a command by an idle engine; or the engine's own
work, under inputs from which a pause may have been used up. -/
theorem step_cases (s : State) :
    ∃ t, step s = .next t ∧
      ((∃ rest, s.inputs = .reset :: rest ∧ t = (s.withInputs rest).applyReset) ∨
        (∃ c rest, s.inputs = .present c :: rest ∧ s.activity = .idle ∧
          t = (s.withInputs rest).accept c) ∨
        (s.NoReset ∧ advance (s.withInputs (afterPause s.inputs)) = .next t)) := by
  unfold step portStep
  split
  · next h =>
    obtain ⟨t, ht, -⟩ := advance_cases s
    refine ⟨t, ht, .inr (.inr ⟨by simp [State.NoReset, h], ?_⟩)⟩
    have : s.withInputs (afterPause s.inputs) = s := by cases s; cases h; rfl
    rw [this, ht]
  · next rest h =>
    obtain ⟨t, ht, -⟩ := advance_cases (s.withInputs rest)
    exact ⟨t, ht, .inr (.inr ⟨by simp [State.NoReset, h], by rw [h]; exact ht⟩)⟩
  · next c rest h =>
    unfold presentCommand
    split
    · obtain ⟨t, ht, -⟩ := advance_cases s
      refine ⟨t, ht, .inr (.inr ⟨by simp [State.NoReset, h], ?_⟩)⟩
      have : s.withInputs (afterPause s.inputs) = s := by cases s; cases h; rfl
      rw [this, ht]
    · next hb => exact ⟨_, rfl, .inr (.inl ⟨c, rest, h, by simpa using hb, rfl⟩)⟩
  · next rest h => exact ⟨_, rfl, .inl ⟨rest, h, rfl⟩⟩

/-- Where a table holds no entry twice, the successor of entry `i` is the next entry, the first after
the last. -/
theorem successorIn_of_getElem? {α : Type} [DecidableEq α] {table : List α} (hn : table.Nodup) {i : Nat}
    {x : α} (h : table[i]? = some x) : successorIn table x = table[(i + 1) % table.length]? := by
  obtain ⟨hi, rfl⟩ := List.getElem?_eq_some_iff.mp h
  have hx : table.idxOf? table[i] = some i := by
    rw [List.idxOf?_eq_some_iff]
    refine ⟨hi, by simp, fun j hj => ?_⟩
    simp [hn.getElem_inj_iff]
    omega
  simp [successorIn, hx]

/-- A value that is no entry has no successor. -/
theorem successorIn_of_not_mem {α : Type} [DecidableEq α] {table : List α} {x : α} (h : x ∉ table) :
    successorIn table x = none := by
  simp [successorIn, List.idxOf?_eq_none_iff.mpr h]

/-- A successor is an entry of the table. -/
theorem successorIn_mem {α : Type} [DecidableEq α] {table : List α} {x y : α}
    (h : successorIn table x = some y) : y ∈ table := by
  unfold successorIn at h
  split at h
  · exact List.mem_of_getElem? h
  · cases h

theorem EscapeTable.nodup (t : EscapeTable) : t.entries.Nodup := by
  have := t.ok
  simp only [escapeEntriesOk, Bool.and_eq_true, decide_eq_true_eq] at this
  exact this.2

theorem EscapeTable.carry_le (t : EscapeTable) {e : Triple} (h : e ∈ t.entries) : e.carry.toNat ≤ 209 := by
  have := t.ok
  simp only [escapeEntriesOk, Bool.and_eq_true, List.all_eq_true, decide_eq_true_eq] at this
  exact this.1 e h

theorem TriggerTable.nodup (t : TriggerTable) : t.values.Nodup := by
  have := t.ok
  simp only [triggerValuesOk, Bool.and_eq_true, decide_eq_true_eq] at this
  exact this.2

theorem TriggerTable.length_eq (t : TriggerTable) : t.values.length = 4 := by
  have := t.ok
  simp only [triggerValuesOk, Bool.and_eq_true, decide_eq_true_eq] at this
  exact this.1

/-- Every table that passes R9 is reached by its own entries, so the parameters are as open as the
spec leaves them. -/
theorem EscapeTable.ofList_entries (t : EscapeTable) : EscapeTable.ofList t.entries = t := by
  simp [EscapeTable.ofList, t.ok]

theorem TriggerTable.ofList_values (t : TriggerTable) : TriggerTable.ofList t.values = t := by
  simp [TriggerTable.ofList, t.ok]

end Sys2Proof.Machine
end

