-- ==== Sys2Proof/Laws/PerInstr.lean ====
section
/-! SUPPORT. Facts about every command as syntax, one lemma per constructor: the family `TableRow`
says that a command's word matches its row of the opcode table. -/

namespace Sys2Proof.Laws.TableRow

/-- The "mask" column of the command's row of opcode_table.json. -/
def mask : Instr → Word64
  | .sample _ _ => 0xFF000000000000FF
  | _ => 0xFFFFFFFFFFFFFFFF

/-- The "match" column of the command's row of opcode_table.json. -/
def pattern : Instr → Word64
  | .nop => 0x0000000000000000
  | .linear => 0x0000000000000001
  | .combine => 0x0000000000000002
  | .halfword => 0x0000000000000003
  | .expand => 0x0000000000000004
  | .sample _ _ => 0x0000000000000005
  | .load _ => 0x0000000000000006
  | .read => 0x0000000000000007

/-- The encoded word has the row's fixed bits. -/
def Statement (i : Instr) : Prop := (encode i).cmd &&& mask i = pattern i

theorem nop : Statement .nop := by unfold Statement; decide

theorem linear : Statement .linear := by unfold Statement; decide

theorem combine : Statement .combine := by unfold Statement; decide

theorem halfword : Statement .halfword := by unfold Statement; decide

theorem expand : Statement .expand := by unfold Statement; decide

/-- The top byte and the low byte of SAMPLE's word, which the operands do not reach. -/
theorem sample (range : Half) (reseed : Word32) : Statement (.sample range reseed) := by
  have masked : (0#8 ++ reseed ++ range ++ 0#4 ++ 5#4) &&& (0xFF#8 ++ 0#32 ++ 0#16 ++ 0xF#4 ++ 0xF#4)
      = 0#8 ++ 0#32 ++ 0#16 ++ 0#4 ++ 5#4 := by
    simp only [BitVec.and_append, BitVec.and_zero]
    rfl
  exact masked

theorem load (value : Word64) : Statement (.load value) := by
  show bareWord 6#4 &&& 0xFFFFFFFFFFFFFFFF = 6
  decide

theorem read : Statement .read := by unfold Statement; decide

end Sys2Proof.Laws.TableRow
end

