-- ==== Sys2Proof/Laws/Run.lean ====
section
/-! SUPPORT. How runs of the machine unfold: one step and then the rest, two runs in a row, and the
step of a busy engine whose host waits. -/

namespace Sys2Proof.Machine

theorem runSteps_zero (s : State) : runSteps 0 s = .next s := rfl

/-- A run takes one step and then the rest. -/
theorem runSteps_succ {s t : State} (h : step s = .next t) (k : Nat) :
    runSteps (k + 1) s = runSteps k t := by
  simp only [runSteps, h]

/-- Every run gives a state: no step stops. -/
theorem runSteps_next (k : Nat) (s : State) : ∃ t, runSteps k s = .next t := by
  induction k generalizing s with
  | zero => exact ⟨s, rfl⟩
  | succ k ih =>
    obtain ⟨t, ht, -⟩ := step_cases s
    rw [runSteps_succ ht]
    exact ih t

/-- A run of `j` steps and then one of `k` steps are one run. -/
theorem runSteps_add {j : Nat} {s t : State} (h : runSteps j s = .next t) (k : Nat) :
    runSteps (j + k) s = runSteps k t := by
  induction j generalizing s with
  | zero =>
    injection h with h
    rw [Nat.zero_add, h]
  | succ j ih =>
    obtain ⟨u, hu, -⟩ := step_cases s
    rw [runSteps_succ hu] at h
    rw [Nat.succ_add, runSteps_succ hu]
    exact ih h

theorem hostRun_succ {M : Host.Core} {s t : M.State} (h : M.step s = .next t) (k : Nat) :
    M.run (k + 1) s = M.run k t := by
  simp only [Host.Core.run, h]

/-- The host's way of running the machine is the same run. -/
theorem core_run_eq (k : Nat) (s : State) : Host.Core.run core k s = runSteps k s := by
  induction k generalizing s with
  | zero => rfl
  | succ k ih =>
    obtain ⟨t, ht, -⟩ := step_cases s
    rw [runSteps_succ ht, ← ih t]
    exact hostRun_succ (M := core) ht k

/-- With a silent host, or a command waiting at the port, a busy engine does its own work. -/
theorem step_of_hostWaits {s : State} (hw : s.HostWaits) (hb : s.activity ≠ .idle) : step s = advance s := by
  rcases hw with h | ⟨c, rest, h⟩
  · unfold step portStep
    rw [h]
  · unfold step portStep presentCommand
    rw [h]
    exact if_pos (by simpa using hb)

/-- The threshold of a range, as a number (R174). -/
theorem rejectionThreshold_toNat {range : Half} (h : 1 ≤ range.toNat) :
    (rejectionThreshold range).toNat = 65536 % range.toNat := by
  have hlt := Nat.mod_lt 65536 h
  have := range.isLt
  simp only [rejectionThreshold, BitVec.toNat_ofNat]
  omega

@[simp] theorem expandTimes_zero (p : Params) (g : GenState) : expandTimes p 0 g = g :=
  expandTimes.eq_1 p g

@[simp] theorem expandTimes_succ (p : Params) (n : Nat) (g : GenState) :
    expandTimes p (n + 1) g = expandTimes p n (expandState p g) :=
  expandTimes.eq_2 p g n

@[simp] theorem afterHalfwords_zero (p : Params) (g : GenState) : afterHalfwords p 0 g = g :=
  afterHalfwords.eq_1 p g

@[simp] theorem afterHalfwords_succ (p : Params) (n : Nat) (g : GenState) :
    afterHalfwords p (n + 1) g = afterHalfwords p n (halfword p g).2 :=
  afterHalfwords.eq_2 p g n

@[simp] theorem halfwordAt_zero (p : Params) (g : GenState) : halfwordAt p 0 g = (halfword p g).1 := by
  unfold halfwordAt
  exact congrArg (fun g' => (halfword p g').1) (afterHalfwords_zero p g)

@[simp] theorem halfwordAt_succ (p : Params) (n : Nat) (g : GenState) :
    halfwordAt p (n + 1) g = halfwordAt p n (halfword p g).2 := by
  unfold halfwordAt
  exact congrArg (fun g' => (halfword p g').1) (afterHalfwords_succ p n g)

end Sys2Proof.Machine
end

