-- ==== Sys2Proof/Tests/Slice0.lean ====
section
/-! SUPPORT. Small checks on fixed values. The expected values are the spec's: 95_test_vectors.md
(V numbers), 30_encoding.md R83, and the worked examples of the rules named. Then, for every
statement with hypotheses, a state that meets them. -/

namespace Sys2Proof.Tests

set_option Elab.async false

open Sys2Proof.Machine

/-! ### Helpers -/

/-- The default parameters with the given tables. -/
def params (cycle start : List Triple) (triggers : List Word64) : Params :=
  ⟨EscapeTable.ofList cycle, EscapeTable.ofList start, TriggerTable.ofList triggers, Layout.default,
    ⟨6, 4, rfl⟩⟩

/-- Empty escape tables, and triggers no test state equals. -/
def plain : Params := params [] [] [0xA1, 0xA2, 0xA3, 0xA4]

/-- An engine with these parameters and this packed state, otherwise as after reset. -/
def engine (p : Params) (v : Word64) : State :=
  { State.reset with gen := GenState.unpack p.layout v, params := p }

/-- An engine that has accepted the command. -/
def accepting (p : Params) (v : Word64) (c : Command) : State := (engine p v).accept c

/-- `RESULT`, packed state and `STATUS` of a next state. -/
def view : Host.Outcome State Fault Refusal → Option (Word64 × Word64 × Byte)
  | .next s => some (s.result, s.gen.pack s.params.layout, s.status)
  | .fault _ => none
  | .refused _ => none

def ofOption (o : Host.Outcome State Fault Refusal) : Option State :=
  match o with
  | .next s => some s
  | .fault _ => none
  | .refused _ => none

/-- The outcome is a next state. -/
theorem next_of_ofOption {o : Host.Outcome State Fault Refusal} {t : State} (h : ofOption o = some t) :
    o = .next t := by
  cases o with
  | next s => injection h with h; rw [h]
  | fault r => cases h
  | refused r => cases h

/-- The outcome is a next state of which `P` holds. -/
def nextHas (o : Host.Outcome State Fault Refusal) (P : State → Bool) : Bool :=
  match o with
  | .next s => P s
  | .fault _ => false
  | .refused _ => false

theorem exists_of_nextHas {o : Host.Outcome State Fault Refusal} {P : State → Bool} (h : nextHas o P = true) :
    ∃ t, o = .next t ∧ P t = true := by
  cases o with
  | next s => exact ⟨s, rfl, h⟩
  | fault r => cases h
  | refused r => cases h

/-- A next state that is not busy, and one that is. -/
theorem exists_idle {o : Host.Outcome State Fault Refusal} (h : nextHas o (fun t => !t.busy) = true) :
    ∃ t, o = .next t ∧ t.busy = false :=
  (exists_of_nextHas h).imp fun _ h => ⟨h.1, by simpa using h.2⟩

theorem exists_busy {o : Host.Outcome State Fault Refusal} (h : nextHas o (fun t => t.busy) = true) :
    ∃ t, o = .next t ∧ t.busy = true := exists_of_nextHas h

/-! ### WellFormed: what each check refuses -/

theorem test_table_refuses_carry_210 : escapeEntriesOk [⟨1, 2, 210⟩] = false := by decide

theorem test_table_refuses_duplicate : escapeEntriesOk [⟨1, 2, 3⟩, ⟨4, 5, 6⟩, ⟨1, 2, 3⟩] = false := by decide

theorem test_table_accepts_empty : escapeEntriesOk [] = true := by decide

theorem test_table_turned_away_is_empty : (EscapeTable.ofList [⟨1, 2, 210⟩]).entries = [] := by decide

theorem test_triggers_refuse_three : triggerValuesOk [1, 2, 3] = false := by decide

theorem test_triggers_refuse_duplicate : triggerValuesOk [1, 2, 3, 2] = false := by decide

theorem test_layout_refuses_overlap : layoutOk 0 32 40 48 48 = false := by decide

theorem test_layout_refuses_bit_64 : layoutOk 8 0 40 48 57 = false := by decide

theorem test_selectors_refuse_bit_7 : selectorsOk 7 4 = false := by decide

theorem test_selectors_refuse_operator_bit_7 : selectorsOk 4 7 = false := by decide

theorem test_selectors_refuse_overlap : selectorsOk 5 4 = false := by decide

theorem test_assembler_refuses_range : (AsmLine.sample 65536 0).assemble = none := by decide

theorem test_assembler_refuses_reseed : (AsmLine.sample 0 4294967296).assemble = none := by decide

theorem test_assembler_refuses_value : (AsmLine.load 18446744073709551616).assemble = none := by decide

theorem test_assembler_refuses_uniform : (AsmLine.uniform 65536).assemble = none := by decide

theorem test_assembler_refuses_reseed_count : (AsmLine.reseed 4294967296).assemble = none := by decide

theorem test_assembler_refuses_stream : (AsmLine.stream 18446744073709551616 0 0).assemble = none := by decide

/-! ### Decode and encode, R83 and V70 to V77 -/

theorem test_decode_nop : decode ⟨0x0000000000000000, 7⟩ = .ok .nop := by decide

theorem test_decode_linear : decode ⟨0x0000000000000001, 7⟩ = .ok .linear := by decide

theorem test_decode_combine : decode ⟨0x0000000000000002, 7⟩ = .ok .combine := by decide

theorem test_decode_halfword : decode ⟨0x0000000000000003, 7⟩ = .ok .halfword := by decide

theorem test_decode_expand : decode ⟨0x0000000000000004, 7⟩ = .ok .expand := by decide

/-- Bit by bit: `RSV1` 8 zeros, `RESEED` 3, `RANGE` 1, `RSV0` 4 zeros, `OPC` 5. -/
theorem test_decode_sample :
    decode ⟨0b0000000000000000000000000000000000000011000000000000000100000101, 7⟩ = .ok (.sample 1 3) := by
  decide

theorem test_decode_load : decode ⟨0x0000000000000006, 0x0123456789ABCDEF⟩ = .ok (.load 0x0123456789ABCDEF) := by
  decide

theorem test_decode_read : decode ⟨0x0000000000000007, 7⟩ = .ok .read := by decide

theorem test_decode_opcode_checked_first : decode ⟨0xFFFFFFFFFFFFFFFF, 0⟩ = .error .illegalOpcode := by decide

theorem test_decode_load_reserved_bit : decode ⟨0x0000000000000106, 0⟩ = .error .reservedNonzero := by decide

theorem test_decode_nop_top_bit : decode ⟨0x8000000000000000, 0⟩ = .error .reservedNonzero := by decide

theorem test_encode_sample : encode (.sample 65535 4294967295) = ⟨0x00FFFFFFFFFFFF05, 0⟩ := by decide

theorem test_encode_load : encode (.load 0x0123456789ABCDEF) = ⟨0x0000000000000006, 0x0123456789ABCDEF⟩ := by
  decide

theorem test_table_word_sample : decodeTableWord 64 0x0A05 = some (.sample 10 0) := by decide

theorem test_table_word_load : decodeTableWord 64 0x0006 = some (.load 0) := by decide

theorem test_fetch_word_runs : step (State.reset.withFetchWord 64 0x0A05)
    = exec (.sample 10 0) (State.reset.withFetchWord 64 0x0A05) := rfl

/-- V73's word, `SAMPLE 15, 0`, in the syntax of R81. -/
theorem test_assemble_text : Assembler.assembleText "sample 15, 0x0 ; V73".toList
    = some [⟨0x0000000000000F05, 0⟩] := by decide

theorem test_assemble_stream : Assembler.assembleText "STREAM 0x0123456789ABCDEF, 3, 1".toList
    = some [⟨0x0000000000000006, 0x0123456789ABCDEF⟩, ⟨0x0000000003000105, 0⟩] := by decide

/-! ### The commands -/

/-- V63, R191: NOP keeps `RESULT`. -/
theorem test_nop_keeps_result : view (exec .nop { engine plain 0 with result := 0x1D }) = some (0x1D, 0, 0x00) := by
  decide +kernel

/-- After V70 a NOP clears `ERR` and not `ERRSEEN`. -/
theorem test_nop_clears_err : view (exec .nop
    { engine plain 0 with err := .illegalOpcode, errSeen := true }) = some (0, 0, 0x08) := by decide +kernel

/-- V1: from `0x0123456789ABCDEF`. -/
theorem test_linear : view (exec .linear (engine plain 0x0123456789ABCDEF))
    = some (0x66, 0x6623456789ABCDEF, 0x00) := by decide +kernel

/-- V1: 203 is the only value whose successor is 0. -/
theorem test_linear_wraps : view (exec .linear (engine plain 0xCB00000000000000)) = some (0, 0, 0x00) := by
  decide +kernel

/-- V10: `shift` refill and degenerate refill. -/
theorem test_combine_from_zero : view (exec .combine (engine plain 0))
    = some (0xD2, 0x48D31884E3A5BAAC, 0x00) := by decide +kernel

/-- V18b: a match on the last entry wraps to the first. -/
theorem test_combine_table_wrap :
    view (exec .combine (engine (params [⟨1, 2, 3⟩, ⟨4, 5, 6⟩] [] [1, 2, 3, 4]) 0x0004050600000001))
      = some (0xD4, 0x1D02D50000000201, 0x00) := by decide +kernel

/-- V22: rotation by 15. -/
theorem test_halfword : view (exec .halfword (engine plain 0x78DDE6E5FD29F054))
    = some (0xA099, 0xC761074DE9C97FE5, 0x00) := by decide +kernel

/-- V29: the last trigger is followed by the first. -/
theorem test_halfword_trigger_wrap :
    view (exec .halfword (engine
      (params [] [] [0x0000000000000000, 0x0123456789ABCDEF, 0xFFFFFFFFFFFFFFFF, 0x00000000DEADBEEF])
      0x00000000DEADBEEF)) = some (0x5231, 0x2A9A5D144180BD78, 0x00) := by decide +kernel

/-- V31. -/
theorem test_expand : view (exec .expand (engine plain 0x0123456789ABCDEF))
    = some (0x32125537F8FACF52, 0x32125537F8FACF52, 0x00) := by decide +kernel

/-- R163: both accumulators zero before their last step. -/
theorem test_expand_zero_accumulators : expandFirst 0 ^^^ expandSecond 0 = 0x0ECE8ECE0ECE8ECE := by decide

/-- V46: range 17, the remainder of 0x5231. -/
theorem test_sample_remainder : view (exec (.sample 17 0) (engine plain 0))
    = some (12, 0x2A9A5D144180BD78, 0x00) := by decide +kernel

/-- V53: range 50000, one reseed-free SAMPLE that redraws once: busy after its first step, done after
the second. -/
theorem test_sample_redraws : view (runSteps 2 (accepting plain 0xF1BBCDCBFA53E0A8 (encode (.sample 50000 0))))
    = some (28597, 0x677493C5995B97E7, 0x00) := by decide +kernel

/-- V61, R192. -/
theorem test_load_fields : ofOption (exec (.load 0x0123456789ABCDEF) (engine plain 0))
    = some { engine plain 0 with
        gen := ⟨0x89ABCDEF, 0x67, 0x45, 0x23, 0x01⟩
        result := 0x0123456789ABCDEF } := by decide +kernel

/-- V62: a state with a degenerate triple and `shift = 0` is loaded as it is. -/
theorem test_load_repairs_nothing : view (exec (.load 0x00FFFFD100000000) (engine plain 0))
    = some (0x00FFFFD100000000, 0x00FFFFD100000000, 0x00) := by decide +kernel

/-- R8: another layout than the default, `shift` in the high half and `linear` lowest. -/
theorem test_layout_is_a_parameter :
    let l : Layout := ⟨32, 24, 16, 8, 0, rfl⟩
    GenState.unpack l 0x0123456789ABCDEF = ⟨0x01234567, 0x89, 0xAB, 0xCD, 0xEF⟩ ∧
      (⟨0x01234567, 0x89, 0xAB, 0xCD, 0xEF⟩ : GenState).pack l = 0x0123456789ABCDEF := by decide +kernel

/-- V60 and V64. -/
theorem test_read : view (exec .read (engine plain 0x0123456789ABCDEF))
    = some (0x0123456789ABCDEF, 0x0123456789ABCDEF, 0x00) := by decide +kernel

/-- V71: an error changes `RESULT` and `STATUS` only. -/
theorem test_illegal_opcode :
    view (step { accepting plain 0x0123456789ABCDEF ⟨0xFFFFFFFFFFFFFFFF, 0⟩ with result := 5 })
      = some (0, 0x0123456789ABCDEF, 0x0A) := by decide +kernel

/-- V74. -/
theorem test_reserved_nonzero : view (step (accepting plain 0x0123456789ABCDEF ⟨0x00000000000000F5, 0⟩))
    = some (0, 0x0123456789ABCDEF, 0x0C) := by decide +kernel

/-- R235: an accepted command shows as `BUSY`. -/
theorem test_accept_sets_busy :
    view (step { engine plain 0 with inputs := [.present ⟨1, 0⟩] }) = some (0, 0, 0x01) := by decide +kernel

/-- R231: reset ends a running SAMPLE. -/
theorem test_reset_while_busy :
    view (step { accepting plain 5 ⟨0x05, 0⟩ with inputs := [.reset], errSeen := true }) = some (0, 0, 0) := by
  decide +kernel

/-! ### Witnesses: the hypotheses of the statements can be met -/

/-- A state that has recorded an error. -/
def erred : State := { State.reset with err := .reservedNonzero, errSeen := true }

/-- A SAMPLE in its rejection loop: V52, `65536 mod 40000 = 25536`, first halfword 0x5231. -/
def looping : State := { engine plain 0x2A9A5D144180BD78 with activity := .redrawing 40000 25536 0x5231 }

theorem witness_ResetLeavesTheResetValues :
    (∃ s : State, s = State.reset) ∧ ∃ s s₀ : State, s = s₀.applyReset := ⟨⟨_, rfl⟩, _, erred, rfl⟩

theorem witness_StatusStaysConsistent : erred.StatusConsistent ∧ erred.err ≠ .none ∧ ∃ t, step erred = .next t :=
  ⟨fun _ => ⟨rfl, rfl⟩, by decide, (step_cases erred).imp fun _ h => h.1⟩

theorem witness_RejectionLoopStaysConsistent : looping.LoopConsistent ∧ ∃ t, step looping = .next t := by
  refine ⟨?_, (step_cases looping).imp fun _ h => h.1⟩
  intro range threshold candidate h
  injection h with h1 h2 h3
  subst h1 h2 h3
  decide

theorem witness_CommandsClearErrAndKeepErrSeen :
    (∃ t, exec .nop erred = .next t ∧ t.busy = false) ∧
      ∃ t, exec (.sample 7 1) erred = .next t ∧ t.busy = true :=
  ⟨exists_idle (by decide +kernel), exists_busy (by decide +kernel)⟩

theorem witness_OnlyResetClearsErrSeen : erred.errSeen = true ∧ erred.NoReset ∧ ∃ t, step erred = .next t :=
  ⟨rfl, by simp [State.NoReset, erred, State.reset], (step_cases erred).imp fun _ h => h.1⟩

theorem witness_ResultChangesOnlyAtCompletion :
    (erred.NoReset ∧ erred.busy = false ∧ ∃ t, step erred = .next t) ∧
      ∃ s t : State, s.NoReset ∧ s.busy = true ∧ step s = .next t ∧ t.busy = true := by
  refine ⟨⟨by simp [State.NoReset, erred, State.reset], rfl, (step_cases erred).imp fun _ h => h.1⟩, ?_⟩
  obtain ⟨t, h, hb⟩ := exists_busy (o := step (accepting plain 0 (encode (.sample 7 1)))) (by decide +kernel)
  exact ⟨_, t, by simp [State.NoReset, accepting, engine, State.reset], rfl, h, hb⟩

theorem witness_TablesAreNeverWritten : ∃ t, step looping = .next t := (step_cases looping).imp fun _ h => h.1

theorem witness_StepRunsTheAcceptedCommand :
    (accepting plain 0 ⟨7, 0⟩).NoReset ∧ decode ⟨7, 0⟩ = .ok .read ∧ decode ⟨8, 0⟩ = .error .illegalOpcode :=
  ⟨by simp [State.NoReset, accepting, engine, State.reset], by decide, by decide⟩

theorem witness_FetchWordRunsNext : decodeTableWord 64 4 = some .expand := by decide

theorem witness_ErroneousCommandEffect :
    decode ⟨0xF, 0⟩ = .error .illegalOpcode ∧ decode ⟨0x17, 0⟩ = .error .reservedNonzero := by decide

theorem witness_WaitingCommandHasNoEffect :
    (∃ s : State, s.inputs = [.present ⟨1, 0⟩] ∧ s.busy = false) ∧
      ∃ s t : State, s.inputs = [.present ⟨1, 0⟩] ∧ s.busy = true ∧ step { s with inputs := [] } = .next t := by
  refine ⟨⟨{ erred with inputs := [.present ⟨1, 0⟩] }, rfl, rfl⟩, ?_⟩
  obtain ⟨t, h, -⟩ := step_cases (accepting plain 0 ⟨0, 0⟩)
  exact ⟨{ accepting plain 0 ⟨0, 0⟩ with inputs := [.present ⟨1, 0⟩] }, t, rfl, rfl, h⟩

theorem witness_ResetActsAtEveryStep :
    ∃ s : State, s.inputs = [.reset, .present ⟨1, 0⟩] ∧ s.busy = true :=
  ⟨{ looping with inputs := [.reset, .present ⟨1, 0⟩] }, rfl, rfl⟩

theorem witness_NothingSurvivesAReset :
    ∃ s₁ s₂ : State, s₁ ≠ s₂ ∧ s₁.params = s₂.params ∧ s₁.inputs = s₂.inputs ∧ ¬ s₁.NoReset :=
  ⟨{ looping with inputs := [.reset] }, { engine plain 9 with inputs := [.reset] },
    fun h => by have := congrArg State.busy h; exact absurd this (by decide), rfl, rfl,
    by simp [State.NoReset]⟩

theorem witness_EndedRunStays : erred.RunEnded := ⟨rfl, rfl⟩

/-- P1's first three commands and a single-step SAMPLE of each kind. -/
theorem witness_CommandsRunInOrder :
    ∃ (is : List Instr) (s : State), is.length = 6 ∧ (∀ i ∈ is, SingleStep i) ∧ s.activity = .idle ∧
      s.inputs = is.map (fun i => .present (encode i)) := by
  refine ⟨[.combine, .read, .linear, .sample 0 0, .sample 1 0, .sample 32768 0],
    { erred with inputs := _ }, rfl, ?_, rfl, rfl⟩
  intro i hi
  simp only [List.mem_cons, List.not_mem_nil, or_false] at hi
  rcases hi with rfl | rfl | rfl | rfl | rfl | rfl
  · trivial
  · trivial
  · trivial
  · exact ⟨rfl, by decide⟩
  · exact ⟨rfl, by decide⟩
  · exact ⟨rfl, by decide⟩

theorem witness_NothingDependsOnStatus :
    ∃ s₁ s₂ : State, s₁ ≠ s₂ ∧ s₁.gen = s₂.gen ∧ s₁.activity = s₂.activity ∧ s₁.params = s₂.params ∧
      s₁.inputs = s₂.inputs ∧ s₁.result = s₂.result :=
  ⟨erred, State.reset, fun h => absurd (congrArg State.errSeen h) (by decide), rfl, rfl, rfl, rfl, rfl⟩

theorem witness_DecodeOfEncode : ∀ v, Instr.sample 3 4 ≠ .load v := by simp

theorem witness_AcceptedWordIsTheEncoding :
    decode ⟨0x0000000003000105, 9⟩ = .ok (.sample 1 3) ∧ decode ⟨6, 9⟩ = .ok (.load 9) := by decide

theorem witness_PseudoCommandsExpand :
    2 ^ 64 - 1 < 2 ^ 64 ∧ 2 ^ 32 - 1 < 2 ^ 32 ∧ 2 ^ 16 - 1 < 2 ^ 16 := by decide

/-- Lines of each shape, with operands at and above the ends of their ranges. -/
theorem witness_AssemblyTextIsRead :
    Assembler.isWord "nOp".toList = true ∧
      ("nOp".toList.map Char.toUpper, Instr.nop) ∈ [("NOP".toList, Instr.nop)] ∧
      Assembler.isWord "load".toList = true ∧ "load".toList.map Char.toUpper = "LOAD".toList ∧
      Assembler.isWord "0xFFFFFFFFFFFFFFFF".toList = true ∧
      Assembler.number "0xFFFFFFFFFFFFFFFF".toList = some (2 ^ 64 - 1) ∧
      Assembler.number "65536".toList = some (2 ^ 16) ∧ Assembler.isWord "65536".toList = true ∧
      "Uniform".toList.map Char.toUpper = "UNIFORM".toList ∧
      "RESEED".toList.map Char.toUpper = "RESEED".toList ∧
      "Sample".toList.map Char.toUpper = "SAMPLE".toList ∧
      "stream".toList.map Char.toUpper = "STREAM".toList := by decide

theorem witness_LoadMakesReproducible : ∃ s₁ s₂ : State, s₁ ≠ s₂ ∧ s₁.params = s₂.params :=
  ⟨erred, State.reset, fun h => absurd (congrArg State.errSeen h) (by decide), rfl⟩

theorem witness_LinearStepHasFullPeriod : (1 ≤ 1 ∧ 1 < 256 ∧ 256 ≤ 256) := by decide

theorem witness_LinearBitPeriods : 0 < 8 ∧ 7 < 8 := by decide

theorem witness_CombineLeavesShiftNonzero : ∃ t, exec .combine (engine plain 0) = .next t :=
  (exec_next .combine _).imp fun _ h => h.1

theorem witness_CombineLeavesCarryBelow210 : ∃ t, exec .combine (engine plain 0xFFFFFFFFFFFFFFFF) = .next t :=
  (exec_next .combine _).imp fun _ h => h.1

/-- A table whose successor is the zero triple. -/
theorem witness_UpdateMeetsNoStaleDegenerateTriple :
    degenerate (escapeCycle (params [] [⟨0, 0, 7⟩, ⟨0, 0, 0⟩] [1, 2, 3, 4])
      (beforeLookup (GenState.unpack Layout.default 0x0000000700000001))) = true := by decide +kernel

theorem witness_DegeneratePointsAreTheFixedPoints :
    (⟨1, 0, 0, 0, 0⟩ : GenState).carry.toNat ≤ 209 ∧ (⟨1, 209, 255, 255, 0⟩ : GenState).carry.toNat ≤ 209 := by
  decide

/-- V18a, V18b (the wrap) and V19a (the start table). -/
theorem witness_CycleEscapeContinuesFromTheSuccessor :
    let p := params [⟨1, 2, 3⟩, ⟨4, 5, 6⟩] [⟨0, 0, 7⟩, ⟨0, 0, 9⟩] [1, 2, 3, 4]
    (escapeTableFor p (beforeLookup (GenState.unpack Layout.default 0x0001020300000001))).entries[0]?
        = some (tripleOf (beforeLookup (GenState.unpack Layout.default 0x0001020300000001))) ∧
      (escapeTableFor p (beforeLookup (GenState.unpack Layout.default 0x0004050600000001))).entries[1]?
        = some (tripleOf (beforeLookup (GenState.unpack Layout.default 0x0004050600000001))) ∧
      (escapeTableFor p (beforeLookup (GenState.unpack Layout.default 0x0000000700000001))).entries[0]?
        = some (tripleOf (beforeLookup (GenState.unpack Layout.default 0x0000000700000001))) ∧
      p.cycleTable.entries[(1 + 1) % p.cycleTable.entries.length]? = some ⟨1, 2, 3⟩ ∧
      p.startTable.entries[(0 + 1) % p.startTable.entries.length]? = some ⟨0, 0, 9⟩ := by decide +kernel

theorem witness_TriggerReplacesTheState :
    plain.triggers.values[0]? = some ((GenState.unpack Layout.default 0xA1).pack Layout.default) ∧
      plain.triggers.values[3]? = some ((GenState.unpack Layout.default 0xA4).pack Layout.default) ∧
      (GenState.unpack Layout.default 0xA5).pack Layout.default ∉ plain.triggers.values := by decide +kernel

theorem witness_BufferRoundHasFullPeriod : 0 < 65535 ∧ 65535 < 65536 := by decide

theorem witness_SamplePowerOfTwoMasks : 1 ≤ 1 ∧ 1 ≤ 15 ∧ 15 ≤ 15 := by decide

/-- V40, V43 (a power of two) and V52, V59 (rejected first draws). -/
theorem witness_SampleFirstDraw :
    (65536 % (10 : Half).toNat ≤ (halfword plain (GenState.unpack Layout.default 0)).1.toNat) ∧
      (65536 % (2 : Half).toNat ≤ (halfword plain (GenState.unpack Layout.default 0)).1.toNat) ∧
      ((halfword plain (GenState.unpack Layout.default 0)).1.toNat < 65536 % (40000 : Half).toNat) ∧
      ((halfword plain (GenState.unpack Layout.default 0)).1.toNat < 65536 % (32769 : Half).toNat) := by decide +kernel

/-- Both counts at the ends of their range, and the second clause's state. -/
theorem witness_SampleReseedsFirst :
    (1 : Word32) ≠ 0 ∧ (0xFFFFFFFF : Word32) ≠ 0 ∧
      ∃ s : State, s.activity = .reseeding 1 0 ∧ s.NoReset :=
  ⟨by decide, by decide, { erred with activity := .reseeding 1 0 }, rfl,
    by simp [State.NoReset, erred, State.reset]⟩

/-- V52: one redraw; V56: one reseed and an accepted first draw. -/
theorem witness_SampleCompletesWithTheFirstAcceptedHalfword :
    (∃ s : State, s.activity = .accepted (encode (.sample 40000 0)) ∧ s.HostWaits ∧
      (∀ j < 1, (halfwordAt s.params j (expandTimes s.params 0 s.gen)).toNat < 65536 % 40000) ∧
      65536 % 40000 ≤ (halfwordAt s.params 1 (expandTimes s.params 0 s.gen)).toNat) ∧
    ∃ s : State, s.activity = .accepted (encode (.sample 10 1)) ∧ s.HostWaits ∧
      65536 % 10 ≤ (halfwordAt s.params 0 (expandTimes s.params 1 s.gen)).toNat :=
  ⟨⟨accepting plain 0 (encode (.sample 40000 0)), rfl, .inl rfl, by decide +kernel, by decide +kernel⟩,
    accepting plain 0 (encode (.sample 10 1)), rfl, .inl rfl, by decide +kernel⟩

theorem witness_SampleReseedsThenRawOrNothing :
    (∃ s : State, s.HostWaits ∧ s.activity = .accepted (encode (.sample 1 3))) ∧
      ∃ s : State, s.HostWaits ∧ s.activity = .accepted (encode (.sample 0 0)) :=
  ⟨⟨accepting plain 0 _, .inl rfl, rfl⟩, accepting plain 0 _, .inl rfl, rfl⟩

theorem witness_SampleStaysBusyWhileRejecting :
    ∃ s : State, s.activity = .accepted (encode (.sample 40000 0)) ∧ s.HostWaits ∧
      ∀ j ≤ 0, (halfwordAt s.params j (expandTimes s.params 0 s.gen)).toNat < 65536 % 40000 :=
  ⟨accepting plain 0 (encode (.sample 40000 0)), rfl, .inl rfl, by decide +kernel⟩

/-- A trigger table under which one halfword leads back to its own state, with a halfword below the
threshold of range 32769: the facts behind a SAMPLE that never completes. -/
theorem witness_SomeSampleNeverCompletes :
    let p := params [] [] [0xDAF6DA481081F9B1, 0x0369D0369D0369D2, 1, 2]
    let g := GenState.unpack Layout.default 0xDAF6DA481081F9B1
    (halfword p g).2 = g ∧ (halfword p g).1.toNat < 65536 % (32769 : Half).toNat := by decide +kernel

/-- All three ways into a completing step, at the ranges 0, 1 and 3. -/
theorem witness_SampleResultIsInRange :
    (∃ t, step (accepting plain 0 (encode (.sample 0 0))) = .next t ∧ t.busy = false) ∧
      (∃ t, step { engine plain 0 with activity := .reseeding 1 0 } = .next t ∧ t.busy = false) ∧
      (∃ t, step { engine plain 0 with activity := .redrawing 3 1 1 } = .next t ∧ t.busy = false) :=
  ⟨exists_idle (by decide +kernel), exists_idle (by decide +kernel), exists_idle (by decide +kernel)⟩

theorem witness_AcceptedHalfwordsAreUniform :
    3 ≤ (3 : Half).toNat ∧ (3 : Half) &&& ((3 : Half) - 1) ≠ 0 ∧ 3 ≤ (65535 : Half).toNat ∧
      (65535 : Half) &&& ((65535 : Half) - 1) ≠ 0 := by decide

end Sys2Proof.Tests
end

section
/-! SUPPORT. The state codec of 10_state.md R22: `pack` and `unpack` are inverse in every layout, and
what they are in the default one. -/

namespace Sys2Proof.Machine

/-- Bit `i` of a field whose lowest bit stands at `lsb`, false below and above the field. -/
def fieldBit {n : Nat} (lsb : Nat) (x : BitVec n) (i : Nat) : Bool :=
  decide (lsb ≤ i) && x.getLsbD (i - lsb)

theorem fieldBit_self {n : Nat} (lsb : Nat) (x : BitVec n) (k : Nat) :
    fieldBit lsb x (lsb + k) = x.getLsbD k := by
  simp [fieldBit]

theorem covers_self {lsb width k : Nat} (hk : k < width) : covers (lsb + k) lsb width = 1 :=
  if_pos ⟨Nat.le_add_right lsb k, Nat.add_lt_add_left hk lsb⟩

theorem fieldBit_of_covers_eq_zero {n lsb i : Nat} (x : BitVec n) (h : covers i lsb n = 0) :
    fieldBit lsb x i = false := by
  have hout : ¬(lsb ≤ i ∧ i < lsb + n) := fun hin => by simp [covers, hin] at h
  by_cases hl : lsb ≤ i
  · have hn : n ≤ i - lsb := by omega
    simp [fieldBit, BitVec.getLsbD_of_ge x _ hn]
  · simp [fieldBit, hl]

/-- A field taken out of `v` carries the bits of `v` at its place and no other. -/
theorem fieldBit_extractLsb' (v : Word64) (lsb n i : Nat) :
    fieldBit lsb (v.extractLsb' lsb n) i = (decide (covers i lsb n = 1) && v.getLsbD i) := by
  by_cases hl : lsb ≤ i
  · have hin : i - lsb < n ↔ i < lsb + n := by omega
    simp [fieldBit, covers, hl, hin]
  · simp [fieldBit, covers, hl]

theorem GenState.getLsbD_pack_eq_fieldBit (l : Layout) (g : GenState) {i : Nat} (hi : i < 64) :
    (g.pack l).getLsbD i =
      (fieldBit l.linearLsb g.linear i || fieldBit l.prevLsb g.prev i ||
        fieldBit l.currentLsb g.current i || fieldBit l.carryLsb g.carry i ||
        fieldBit l.shiftLsb g.shift i) :=
  GenState.getLsbD_pack l g hi

/-- Every bit of `v` is in some field, so packing the fields loses none. -/
theorem GenState.pack_unpack (l : Layout) (v : Word64) : (GenState.unpack l v).pack l = v := by
  apply BitVec.eq_of_getLsbD_eq
  intro i hi
  have hcovered : (((covers i l.linearLsb 8 = 1 ∨ covers i l.prevLsb 8 = 1) ∨
      covers i l.currentLsb 8 = 1) ∨ covers i l.carryLsb 8 = 1) ∨ covers i l.shiftLsb 32 = 1 := by
    have htile := l.tiles hi
    unfold fieldsAt at htile
    omega
  rw [getLsbD_pack_eq_fieldBit l _ hi]
  unfold GenState.unpack
  simp only [fieldBit_extractLsb', ← Bool.and_or_distrib_right]
  simp [hcovered]

/-- To read a field out of a packed value, look at the bits of its place, which lie in no other field. -/
theorem GenState.extractLsb'_pack (l : Layout) (g : GenState) {n lsb : Nat} (x : BitVec n)
    (hfit : lsb + n ≤ 64)
    (hbit : ∀ k, lsb + k < 64 → covers (lsb + k) lsb n = 1 →
      fieldsAt l.shiftLsb l.carryLsb l.currentLsb l.prevLsb l.linearLsb (lsb + k) = 1 →
      (g.pack l).getLsbD (lsb + k) = x.getLsbD k) :
    (g.pack l).extractLsb' lsb n = x := by
  apply BitVec.eq_of_getLsbD_eq
  intro k hk
  have hi : lsb + k < 64 := by omega
  rw [BitVec.getLsbD_extractLsb', hbit k hi (covers_self hk) (l.tiles hi)]
  simp [hk]

theorem GenState.unpack_pack (l : Layout) (g : GenState) : GenState.unpack l (g.pack l) = g := by
  obtain ⟨hshift, hcarry, hcurrent, hprev, hlinear⟩ := l.fits
  have hfields : (g.pack l).extractLsb' l.shiftLsb 32 = g.shift ∧
      (g.pack l).extractLsb' l.carryLsb 8 = g.carry ∧
      (g.pack l).extractLsb' l.currentLsb 8 = g.current ∧
      (g.pack l).extractLsb' l.prevLsb 8 = g.prev ∧
      (g.pack l).extractLsb' l.linearLsb 8 = g.linear := by
    refine ⟨extractLsb'_pack l g _ hshift ?_, extractLsb'_pack l g _ hcarry ?_,
      extractLsb'_pack l g _ hcurrent ?_, extractLsb'_pack l g _ hprev ?_,
      extractLsb'_pack l g _ hlinear ?_⟩
    all_goals
      intro k hi hself htile
      unfold fieldsAt at htile
      simp (disch := omega) only [getLsbD_pack_eq_fieldBit, fieldBit_self, fieldBit_of_covers_eq_zero,
        Bool.or_false, Bool.false_or]
  unfold GenState.unpack
  simp [hfields]

theorem GenState.unpack_default (v : Word64) : GenState.unpack Layout.default v =
    ⟨v.extractLsb' 0 32, v.extractLsb' 32 8, v.extractLsb' 40 8, v.extractLsb' 48 8,
      v.extractLsb' 56 8⟩ := by
  unfold GenState.unpack
  rfl

theorem GenState.unpack_default_append (g : GenState) :
    GenState.unpack Layout.default (g.linear ++ g.prev ++ g.current ++ g.carry ++ g.shift) = g := by
  rw [GenState.unpack_default]
  simp only [BitVec.extractLsb'_append_eq_ite]
  simp

theorem GenState.pack_default (g : GenState) :
    g.pack Layout.default = g.linear ++ g.prev ++ g.current ++ g.carry ++ g.shift := by
  have h := GenState.pack_unpack Layout.default (g.linear ++ g.prev ++ g.current ++ g.carry ++ g.shift)
  rwa [GenState.unpack_default_append] at h

theorem exec_load (v : Word64) (s : State) :
    exec (.load v) s = .next ((s.withGen (GenState.unpack s.params.layout v)).complete v) := rfl

theorem exec_read (s : State) : exec .read s = .next (s.complete (s.gen.pack s.params.layout)) := rfl

/-- Settles O2. The layout tiles the 64 bits: that every bit is in some field gives one direction, that
it is in no second field the other. -/
theorem packAndUnpackAreInverse : Obligations.PackAndUnpackAreInverse := by
  unfold Obligations.PackAndUnpackAreInverse
  refine ⟨GenState.pack_unpack, GenState.unpack_pack, GenState.unpack_default, GenState.pack_default,
    rfl, fun s v => ⟨_, _, exec_load v s, exec_read _, ?_, rfl⟩⟩
  exact GenState.pack_unpack s.params.layout v

end Sys2Proof.Machine
end

section
/-! SUPPORT. What one step can do, read from a given next state, and the statements about `STATUS`,
reset and the tables. -/

namespace Sys2Proof.Machine

/-- `advance_cases` for a given next state. -/
theorem advance_next_cases {s t : State} (h : advance s = .next t) :
    (s.activity = .idle ∧ t = s) ∨ (s.activity ≠ .idle ∧ ((∃ e, t = s.raiseError e) ∨ Effect s t)) := by
  obtain ⟨u, hu, hcases⟩ := advance_cases s
  obtain rfl : u = t := by simpa [hu] using h
  exact hcases

/-- `step_cases` for a given next state. -/
theorem step_next_cases {s t : State} (h : step s = .next t) :
    (∃ rest, s.inputs = .reset :: rest ∧ t = (s.withInputs rest).applyReset) ∨
      (∃ c rest, s.inputs = .present c :: rest ∧ s.activity = .idle ∧
        t = (s.withInputs rest).accept c) ∨
      (s.NoReset ∧ advance (s.withInputs (afterPause s.inputs)) = .next t) := by
  obtain ⟨u, hu, hcases⟩ := step_cases s
  obtain rfl : u = t := by simpa [hu] using h
  exact hcases

theorem advance_params {s t : State} (h : advance s = .next t) : t.params = s.params := by
  obtain ⟨-, rfl⟩ | ⟨-, ⟨e, rfl⟩ | he⟩ := advance_next_cases h
  · rfl
  · rfl
  · exact he.params_eq

/-- On its own the engine never clears `ERRSEEN`. -/
theorem advance_keeps_errSeen {s t : State} (h : advance s = .next t) (hs : s.errSeen = true) :
    t.errSeen = true := by
  obtain ⟨-, rfl⟩ | ⟨-, ⟨e, rfl⟩ | he⟩ := advance_next_cases h
  · exact hs
  · rfl
  · rw [he.errSeen_eq, hs]

/-- Settles O8: of the three things a step can do, only the reset clears `ERRSEEN`. -/
theorem onlyResetClearsErrSeen : Obligations.OnlyResetClearsErrSeen := by
  unfold Obligations.OnlyResetClearsErrSeen
  intro s t hseen hnoReset hstep
  obtain ⟨rest, hin, -⟩ | ⟨c, rest, -, -, rfl⟩ | ⟨-, hadv⟩ := step_next_cases hstep
  · exact absurd (by simp [hin]) hnoReset
  · exact hseen
  · exact advance_keeps_errSeen hadv hseen

theorem State.status_eq_zero {s : State} (hactivity : s.activity = .idle) (herr : s.err = .none)
    (hseen : s.errSeen = false) : s.status = 0 := by
  unfold State.status
  rw [(State.busy_eq_false_iff s).mpr hactivity, herr, hseen]
  rfl

/-- Settles O1. -/
theorem resetLeavesTheResetValues : Obligations.ResetLeavesTheResetValues := by
  unfold Obligations.ResetLeavesTheResetValues
  refine ⟨?_, State.applyReset_params, rfl⟩
  rintro s (rfl | ⟨s₀, rfl⟩)
  · exact ⟨rfl, rfl, rfl, rfl, rfl, rfl, rfl, rfl, rfl, State.status_eq_zero rfl rfl rfl, rfl⟩
  · exact ⟨rfl, rfl, rfl, rfl, rfl, rfl, rfl, rfl, rfl, State.status_eq_zero rfl rfl rfl, rfl⟩

/-- The fields of the status byte, from the three parts it is made of. -/
theorem State.status_fields (s : State) :
    s.status.getLsbD 0 = s.busy ∧ s.status.extractLsb' 1 2 = s.err.bits ∧
      s.status.getLsbD 3 = s.errSeen ∧ s.status.extractLsb' 4 4 = 0#4 := by
  unfold State.status
  generalize s.errSeen = errSeen
  generalize s.busy = busy
  revert errSeen busy
  cases s.err <;> decide

/-- Settles O3. -/
theorem statusByteLayout : Obligations.StatusByteLayout := by
  unfold Obligations.StatusByteLayout
  intro s
  obtain ⟨hbusy, herr, hseen, hzero⟩ := s.status_fields
  refine ⟨by rw [hbusy, State.busy_eq_true_iff], ?_, ?_, hseen, hzero⟩
  · rw [herr]
    cases s.err <;> rfl
  · rw [herr]
    cases s.err <;> decide

/-- Settles O6. -/
theorem resetMeetsTheInvariants : Obligations.ResetMeetsTheInvariants := by
  unfold Obligations.ResetMeetsTheInvariants
  refine ⟨fun herr => absurd rfl herr, ?_, rfl⟩
  intro range threshold candidate hactivity
  cases hactivity

/-- Settles O10. -/
theorem tablesAreNeverWritten : Obligations.TablesAreNeverWritten := by
  unfold Obligations.TablesAreNeverWritten
  intro s t hstep
  obtain ⟨rest, -, rfl⟩ | ⟨c, rest, -, -, rfl⟩ | ⟨-, hadv⟩ := step_next_cases hstep
  · rfl
  · rfl
  · exact (advance_params hadv).trans (State.withInputs_params s _)

/-- Settles O11. -/
theorem everyStepGivesANextState : Obligations.EveryStepGivesANextState := by
  unfold Obligations.EveryStepGivesANextState
  intro s
  obtain ⟨t, ht, -⟩ := step_cases s
  exact ⟨t, ht⟩

end Sys2Proof.Machine
end

section
/-! SUPPORT. Noninterference of `STATUS` (10_state.md R30): a relation between two engines that may
differ in `ERR` and `ERRSEEN`, and that every operation keeps. -/

namespace Sys2Proof.Machine

/-- The two engines differ in `ERR` and `ERRSEEN` at most, and in `RESULT` unless `sameResult` holds. -/
structure Alike (sameResult : Prop) (s₁ s₂ : State) : Prop where
  gen : s₁.gen = s₂.gen
  activity : s₁.activity = s₂.activity
  params : s₁.params = s₂.params
  inputs : s₁.inputs = s₂.inputs
  result : sameResult → s₁.result = s₂.result

/-- Both outcomes are next states, and these are alike. -/
def AlikeNext (sameResult : Prop) (o₁ o₂ : Host.Outcome State Fault Refusal) : Prop :=
  ∃ t₁ t₂, o₁ = .next t₁ ∧ o₂ = .next t₂ ∧ Alike sameResult t₁ t₂

section
variable {sameResult : Prop} {s₁ s₂ : State}

theorem Alike.next (h : Alike sameResult s₁ s₂) : AlikeNext sameResult (.next s₁) (.next s₂) :=
  ⟨s₁, s₂, rfl, rfl, h⟩

theorem Alike.withGen (h : Alike sameResult s₁ s₂) (g : GenState) :
    Alike sameResult (s₁.withGen g) (s₂.withGen g) :=
  ⟨rfl, h.activity, h.params, h.inputs, h.result⟩

theorem Alike.withInputs (h : Alike sameResult s₁ s₂) (rest : List HostAction) :
    Alike sameResult (s₁.withInputs rest) (s₂.withInputs rest) :=
  ⟨h.gen, h.activity, h.params, rfl, h.result⟩

theorem Alike.withActivity (h : Alike sameResult s₁ s₂) (a : Activity) :
    Alike sameResult { s₁ with activity := a } { s₂ with activity := a } :=
  ⟨h.gen, rfl, h.params, h.inputs, h.result⟩

theorem Alike.accept (h : Alike sameResult s₁ s₂) (c : Command) :
    Alike sameResult (s₁.accept c) (s₂.accept c) :=
  h.withActivity (.accepted c)

theorem Alike.complete (h : Alike sameResult s₁ s₂) (r : Word64) :
    Alike sameResult (s₁.complete r) (s₂.complete r) :=
  ⟨h.gen, rfl, h.params, h.inputs, fun _ => rfl⟩

theorem Alike.raiseError (h : Alike sameResult s₁ s₂) (e : CommandError) :
    Alike sameResult (s₁.raiseError e) (s₂.raiseError e) :=
  ⟨h.gen, rfl, h.params, h.inputs, fun _ => rfl⟩

theorem Alike.applyReset (h : Alike sameResult s₁ s₂) : Alike sameResult s₁.applyReset s₂.applyReset :=
  ⟨rfl, rfl, h.params, h.inputs, fun _ => rfl⟩

theorem Alike.busy (h : Alike sameResult s₁ s₂) : s₁.busy = s₂.busy := by
  unfold State.busy
  rw [h.activity]

theorem Alike.testCandidate (h : Alike sameResult s₁ s₂) (range t c : Half) :
    Alike sameResult (s₁.testCandidate range t c) (s₂.testCandidate range t c) := by
  rw [State.testCandidate_eq, State.testCandidate_eq]
  split_ifs
  · exact h.withActivity _
  · exact h.complete _

theorem Alike.limitDrawn (h : Alike sameResult s₁ s₂) (range d : Half) :
    Alike sameResult (s₁.limitDrawn range d) (s₂.limitDrawn range d) := by
  unfold State.limitDrawn
  split_ifs
  · exact h.complete _
  · exact h.complete _
  · exact h.testCandidate range _ d
  · exact h.complete _

theorem Alike.limit (h : Alike sameResult s₁ s₂) (range : Half) :
    Alike sameResult (s₁.limit range) (s₂.limit range) := by
  unfold State.limit
  rw [h.gen, h.params]
  split_ifs
  · exact h.complete 0
  · exact (h.withGen _).limitDrawn range _

theorem Alike.sampleFrom (h : Alike sameResult s₁ s₂) (range : Half) (n : Word32) :
    Alike sameResult (s₁.sampleFrom range n) (s₂.sampleFrom range n) := by
  unfold State.sampleFrom
  rw [h.gen, h.params]
  split_ifs
  · exact h.limit range
  · exact (h.withGen _).withActivity _

theorem Alike.redraw (h : Alike sameResult s₁ s₂) (range t c : Half) :
    Alike sameResult (s₁.redraw range t c) (s₂.redraw range t c) := by
  unfold State.redraw
  rw [h.gen, h.params]
  split_ifs
  · exact (h.withGen _).testCandidate range t _
  · exact h.complete _

/-- A NOP keeps `RESULT`: the one command whose `RESULT` is alike only if it was before. -/
theorem Alike.execNop (h : Alike sameResult s₁ s₂) :
    Alike sameResult (s₁.complete s₁.result) (s₂.complete s₂.result) :=
  ⟨h.gen, rfl, h.params, h.inputs, h.result⟩

theorem Alike.exec (h : Alike sameResult s₁ s₂) (i : Instr) :
    AlikeNext sameResult (exec i s₁) (exec i s₂) := by
  unfold Machine.exec
  cases i with
  | nop => exact h.execNop.next
  | linear =>
    unfold execLinear
    rw [h.gen]
    exact ((h.withGen _).complete _).next
  | combine =>
    unfold execCombine
    rw [h.gen, h.params]
    exact ((h.withGen _).complete _).next
  | halfword =>
    unfold execHalfword
    rw [h.gen, h.params]
    exact ((h.withGen _).complete _).next
  | expand =>
    unfold execExpand
    rw [h.gen, h.params]
    exact ((h.withGen _).complete _).next
  | sample range reseed => exact (h.sampleFrom range reseed).next
  | load value =>
    unfold execLoad
    rw [h.params]
    exact ((h.withGen _).complete _).next
  | read =>
    unfold execRead
    rw [h.gen, h.params]
    exact (h.complete _).next

theorem Alike.runAccepted (h : Alike sameResult s₁ s₂) (c : Command) :
    AlikeNext sameResult (runAccepted c s₁) (runAccepted c s₂) := by
  unfold Machine.runAccepted
  cases decode c with
  | ok i => exact h.exec i
  | error e => exact (h.raiseError e).next

theorem Alike.advance (h : Alike sameResult s₁ s₂) : AlikeNext sameResult (advance s₁) (advance s₂) := by
  unfold Machine.advance
  rw [h.activity]
  cases s₂.activity with
  | idle => exact h.next
  | accepted c => exact h.runAccepted c
  | reseeding range n => exact (h.sampleFrom range n).next
  | redrawing range t c => exact (h.redraw range t c).next

theorem Alike.presentCommand (h : Alike sameResult s₁ s₂) (c : Command) (rest : List HostAction) :
    AlikeNext sameResult (presentCommand c rest s₁) (presentCommand c rest s₂) := by
  unfold Machine.presentCommand
  rw [h.busy]
  split_ifs
  · exact h.advance
  · exact ((h.withInputs rest).accept c).next

theorem Alike.step (h : Alike sameResult s₁ s₂) : AlikeNext sameResult (step s₁) (step s₂) := by
  unfold Machine.step portStep
  rw [h.inputs]
  split
  · exact h.advance
  · exact (h.withInputs _).advance
  · exact h.presentCommand _ _
  · exact (h.withInputs _).applyReset.next

theorem Alike.runSteps (h : Alike sameResult s₁ s₂) (k : Nat) :
    AlikeNext sameResult (runSteps k s₁) (runSteps k s₂) := by
  induction k generalizing s₁ s₂ with
  | zero => exact h.next
  | succ k ih =>
    obtain ⟨t₁, t₂, h₁, h₂, ht⟩ := h.step
    rw [runSteps_succ h₁, runSteps_succ h₂]
    exact ih ht

end

/-- Settles O20, by induction on the number of steps: every step keeps the engines alike. -/
theorem nothingDependsOnStatus : Obligations.NothingDependsOnStatus := by
  unfold Obligations.NothingDependsOnStatus
  intro k s₁ s₂ hgen hactivity hparams hinputs
  have halike : Alike (s₁.result = s₂.result) s₁ s₂ := ⟨hgen, hactivity, hparams, hinputs, id⟩
  obtain ⟨t₁, t₂, h₁, h₂, ht⟩ := halike.runSteps k
  exact ⟨t₁, t₂, h₁, h₂, ht.gen, ht.activity, ht.inputs, ht.result⟩

end Sys2Proof.Machine
end

section
/-! SUPPORT. The carry and the triple on the way through `Combine()` (10_state.md R25, R26). -/

namespace Sys2Proof.Machine

theorem combineState_eq (p : Params) (g : GenState) :
    combineState p g = linearStep (mwcUpdate (escapeCycle p (beforeLookup g))) := by
  unfold combineState
  rfl

@[simp] theorem linearStep_carry (g : GenState) : (linearStep g).carry = g.carry := rfl

theorem carryBelow210_le (c : Byte) : (carryBelow210 c).toNat ≤ 209 := by
  have hlt := c.isLt
  unfold carryBelow210
  split
  · next h =>
    rw [BitVec.toNat_sub_of_le h, BitVec.toNat_ofNat]
    omega
  · next h =>
    rw [BitVec.le_def, BitVec.toNat_ofNat] at h
    omega

theorem normalizeCarry_carry_le (g : GenState) : (normalizeCarry g).carry.toNat ≤ 209 :=
  carryBelow210_le g.carry

theorem beforeLookup_carry_le (g : GenState) : (beforeLookup g).carry.toNat ≤ 209 := by
  unfold beforeLookup escapeDegenerate
  split
  · exact normalizeCarry_carry_le _
  · exact normalizeCarry_carry_le _

/-- The table lookup in terms of the successor alone. -/
theorem escapeCycle_of_none {p : Params} {g : GenState}
    (h : successorIn (escapeTableFor p g).entries (tripleOf g) = none) : escapeCycle p g = g := by
  unfold escapeCycle
  rw [h]

theorem tripleOf_escapeCycle_of_some {p : Params} {g : GenState} {t : Triple}
    (h : successorIn (escapeTableFor p g).entries (tripleOf g) = some t) :
    tripleOf (escapeCycle p g) = t := by
  unfold escapeCycle
  rw [h]
  rfl

/-- No entry of a table has a larger carry (R9), so the lookup keeps the bound. -/
theorem escapeCycle_carry_le (p : Params) (g : GenState) (hg : g.carry.toNat ≤ 209) :
    (escapeCycle p g).carry.toNat ≤ 209 := by
  cases h : successorIn (escapeTableFor p g).entries (tripleOf g) with
  | none => rwa [escapeCycle_of_none h]
  | some t =>
    have hcarry : (escapeCycle p g).carry = t.carry :=
      congrArg Triple.carry (tripleOf_escapeCycle_of_some h)
    rw [hcarry]
    exact EscapeTable.carry_le _ (successorIn_mem h)

/-- The 16 bits hold the product of R117 exactly. -/
theorem mwcProduct_toNat (g : GenState) : (mwcProduct g).toNat = 210 * g.prev.toNat + g.carry.toNat := by
  have hprev := g.prev.isLt
  have hcarry := g.carry.isLt
  unfold mwcProduct
  simp only [BitVec.toNat_add, BitVec.toNat_mul, BitVec.toNat_setWidth, BitVec.toNat_ofNat]
  omega

theorem mwcUpdate_carry_toNat (g : GenState) :
    (mwcUpdate g).carry.toNat = (210 * g.prev.toNat + g.carry.toNat) / 256 := by
  have hprev := g.prev.isLt
  have hcarry := g.carry.isLt
  unfold mwcUpdate
  rw [BitVec.extractLsb'_toNat, mwcProduct_toNat, Nat.shiftRight_eq_div_pow]
  omega

/-- `210 * 255 + 209 < 210 * 256`: a normalized carry stays below 210. -/
theorem mwcUpdate_carry_le (g : GenState) (hg : g.carry.toNat ≤ 209) :
    (mwcUpdate g).carry.toNat ≤ 209 := by
  have hprev := g.prev.isLt
  rw [mwcUpdate_carry_toNat]
  omega

theorem combineState_carry_le (p : Params) (g : GenState) : (combineState p g).carry.toNat ≤ 209 := by
  rw [combineState_eq, linearStep_carry]
  exact mwcUpdate_carry_le _ (escapeCycle_carry_le p _ (beforeLookup_carry_le g))

theorem exec_combine (s : State) : exec .combine s =
    .next ((s.withGen (combineState s.params s.gen)).complete
      (zext64 (combinedByte s.params (combineState s.params s.gen)))) := rfl

/-- Settles O36. -/
theorem combineLeavesCarryBelow210 : Obligations.CombineLeavesCarryBelow210 := by
  unfold Obligations.CombineLeavesCarryBelow210
  intro s t h
  rw [exec_combine] at h
  injection h with h
  rw [← h]
  exact combineState_carry_le s.params s.gen

theorem escapeDegenerate_of_not {g : GenState} (h : degenerate g = false) : escapeDegenerate g = g := by
  simp [escapeDegenerate, h]

/-- The three linear bytes of R115 and their places. -/
theorem tripleOf_escapeDegenerate {g : GenState} (h : degenerate g = true) :
    tripleOf (escapeDegenerate g) =
      { prev := linearNext g.linear
        carry := carryBelow210 (linearNext (linearNext g.linear))
        current := linearNext (linearNext (linearNext g.linear)) } := by
  unfold escapeDegenerate
  rw [if_pos h]
  rfl

/-- A triple still degenerate after sub-step 3b was so before it and was replaced there. -/
theorem degenerate_of_degenerate_escapeDegenerate {g : GenState}
    (h : degenerate (escapeDegenerate g) = true) : degenerate g = true := by
  by_contra hg
  rw [escapeDegenerate_of_not (by simpa using hg)] at h
  exact hg h

/-- Settles O37, by whether the table lookup finds the triple. -/
theorem updateMeetsNoStaleDegenerateTriple : Obligations.UpdateMeetsNoStaleDegenerateTriple := by
  unfold Obligations.UpdateMeetsNoStaleDegenerateTriple
  intro p g
  refine ⟨combineState_eq p g, fun hdeg => ?_⟩
  cases hlookup : successorIn (escapeTableFor p (beforeLookup g)).entries (tripleOf (beforeLookup g)) with
  | some t =>
    right
    rw [tripleOf_escapeCycle_of_some hlookup]
  | none =>
    left
    rw [escapeCycle_of_none hlookup] at hdeg ⊢
    have hbefore : degenerate (normalizeCarry (stepShift (refillShift g))) = true :=
      degenerate_of_degenerate_escapeDegenerate hdeg
    exact ⟨hbefore, rfl, tripleOf_escapeDegenerate hbefore⟩

end Sys2Proof.Machine
end

section
/-! SUPPORT. The port as a queue of commands (20_memory.md R58, 70_reset_and_hazards.md R238): what the
encoder makes decodes to its command, a single-step command completes at once, and two steps of an idle
engine execute the command at the port. -/

namespace Sys2Proof

theorem decode_sampleWord (range : Half) (reseed : Word32) (data : Word64) :
    decode ⟨sampleWord range reseed, data⟩ = .ok (.sample range reseed) := by
  obtain ⟨hopcode, hreserved0, hrange, hreseed, hreserved1⟩ := fields_sampleWord range reseed
  unfold decode
  rw [hopcode, hreserved0, hrange, hreseed, hreserved1]
  rfl

theorem decode_encode (i : Instr) : decode (encode i) = .ok i := by
  cases i with
  | sample range reseed => exact decode_sampleWord range reseed 0
  | _ =>
    unfold decode encode
    rw [opcodeField_bareWord, aboveOpcodeField_bareWord]
    rfl

namespace Machine

/-- With no reseed and a range that is 0, 1 or a power of two, a SAMPLE never enters the rejection
loop (R170 to R172). At range 0 the mask is all ones, so `RESULT` is the whole halfword. -/
theorem sampleFrom_of_noRejection (s : State) {range : Half} (hrange : range &&& (range - 1) = 0) :
    s.sampleFrom range 0 =
      if range = 1 then s.complete 0
      else (s.withGen (halfword s.params s.gen).2).complete
        (zext64 ((halfword s.params s.gen).1 &&& (range - 1))) := by
  unfold State.sampleFrom State.limit State.limitDrawn
  rw [if_pos rfl, if_pos hrange]
  split_ifs with hone hzero
  · rfl
  · subst hzero
    rw [show (0 : Half) - 1 = BitVec.allOnes 16 from rfl, BitVec.and_allOnes]
  · rfl

/-- A single-step command completes, and does the same from the port's `accepted` activity. -/
theorem exec_singleStep {i : Instr} (hi : SingleStep i) (s : State) :
    ∃ t, exec i s = .next t ∧ t.activity = .idle ∧ ∀ c, exec i (s.accept c) = .next t := by
  cases i with
  | sample range reseed =>
    obtain ⟨rfl, hrange⟩ := hi
    unfold exec execSample
    simp only [sampleFrom_of_noRejection _ hrange]
    split_ifs
    · exact ⟨_, rfl, rfl, fun _ => rfl⟩
    · exact ⟨_, rfl, rfl, fun _ => rfl⟩
  | _ => exact ⟨_, rfl, rfl, fun _ => rfl⟩

/-- An idle engine takes the presented command off the port (R235). -/
theorem step_of_idle_of_present {s : State} {c : Command} {rest : List HostAction}
    (hidle : s.activity = .idle) (hin : s.inputs = .present c :: rest) :
    step s = .next ((s.withInputs rest).accept c) := by
  unfold step portStep presentCommand
  rw [hin]
  exact if_neg (by simp [hidle])

theorem runAccepted_encode (i : Instr) (s : State) : runAccepted (encode i) s = exec i s := by
  unfold runAccepted
  rw [decode_encode]

theorem advance_of_accepted {s : State} {c : Command} (hactivity : s.activity = .accepted c) :
    advance s = runAccepted c s := by
  unfold advance
  rw [hactivity]

/-- The engine decodes and runs the command it accepted (R235). -/
theorem step_of_accepted_encode {s : State} {i : Instr} (hwaits : s.HostWaits)
    (hactivity : s.activity = .accepted (encode i)) : step s = exec i s := by
  have hbusy : s.activity ≠ .idle := by simp [hactivity]
  rw [step_of_hostWaits hwaits hbusy, advance_of_accepted hactivity, runAccepted_encode]

theorem hostWaits_of_inputs_eq_map_present {s : State} {cs : List Command}
    (h : s.inputs = cs.map .present) : s.HostWaits := by
  cases cs with
  | nil => exact .inl h
  | cons c cs => exact .inr ⟨c, cs.map .present, h⟩

theorem execAll_cons {i : Instr} {s t : State} (h : exec i s = .next t) (is : List Instr) :
    execAll (i :: is) s = execAll is t := by
  simp only [execAll, h]

/-- Two steps of the port execute one command: the first accepts it, the second runs it. -/
theorem runSteps_two_of_singleStep {i : Instr} (hi : SingleStep i) {s : State} {rest : List HostAction}
    (hidle : s.activity = .idle) (hin : s.inputs = .present (encode i) :: rest)
    (hwaits : (s.withInputs rest).HostWaits) :
    ∃ t, exec i (s.withInputs rest) = .next t ∧ t.activity = .idle ∧ runSteps 2 s = .next t := by
  obtain ⟨t, hexec, htidle, haccepted⟩ := exec_singleStep hi (s.withInputs rest)
  refine ⟨t, hexec, htidle, ?_⟩
  have hrun : step ((s.withInputs rest).accept (encode i)) =
      exec i ((s.withInputs rest).accept (encode i)) := step_of_accepted_encode hwaits rfl
  rw [runSteps_succ (step_of_idle_of_present hidle hin), runSteps_succ (hrun.trans (haccepted _)),
    runSteps_zero]

/-- Settles O19, by induction on the commands: two steps execute the first one and leave an idle engine
with the others at its port. -/
theorem commandsRunInOrder : Obligations.CommandsRunInOrder := by
  unfold Obligations.CommandsRunInOrder
  intro is
  induction is with
  | nil =>
    intro s _ _ hin
    exact congrArg Host.Outcome.next (by rw [← s.withInputs_self, hin]; rfl)
  | cons i is ih =>
    intro s hsingle hidle hin
    obtain ⟨hi, his⟩ := List.forall_mem_cons.mp hsingle
    obtain ⟨t, hexec, htidle, htwo⟩ := runSteps_two_of_singleStep hi hidle hin
      (hostWaits_of_inputs_eq_map_present (cs := is.map encode) (by simp))
    have htin : t.inputs = is.map (fun i => .present (encode i)) := (exec_effect hexec).inputs_eq
    calc runSteps (2 * (is.length + 1)) s
        = runSteps (2 + 2 * is.length) s := by rw [Nat.mul_succ, Nat.add_comm]
      _ = runSteps (2 * is.length) t := runSteps_add htwo _
      _ = execAll is (t.withInputs []) := ih t his htidle htin
      _ = execAll (i :: is) (s.withInputs []) := (execAll_cons (exec_withInputs [] hexec) is).symm

end Machine

end Sys2Proof
end

section
/-! SUPPORT. The decoder and the encoder as inverses of each other (30_encoding.md R70 to R83): the
command words that decode are the encoder's words and no others. -/

namespace Sys2Proof

/-- The command with the given data operand: LOAD takes it as its value (R76), every other ignores it. -/
def Instr.withData (data : Word64) : Instr → Instr
  | .load _ => .load data
  | i => i

theorem Instr.withData_of_ne_load {i : Instr} (h : ∀ v, i ≠ .load v) (data : Word64) :
    i.withData data = i := by
  cases i with
  | load v => exact absurd rfl (h v)
  | _ => rfl

theorem decode_encode_cmd (i : Instr) (data : Word64) :
    decode ⟨(encode i).cmd, data⟩ = .ok (i.withData data) := by
  cases i with
  | sample range reseed => exact decode_sampleWord range reseed data
  | _ =>
    unfold decode encode
    rw [opcodeField_bareWord, aboveOpcodeField_bareWord]
    rfl

/-- Settles O23. -/
theorem decodeOfEncode : Obligations.DecodeOfEncode := by
  unfold Obligations.DecodeOfEncode
  refine ⟨decode_encode, fun i data hload => ?_⟩
  rw [decode_encode_cmd, Instr.withData_of_ne_load hload]

/-- R72: opcode and reserved bits are the whole word. -/
theorem eq_bareWord {w : Word64} {opc : BitVec 4} (hopcode : opcodeField w = opc)
    (habove : aboveOpcodeField w = 0) : w = bareWord opc := by
  have hword : aboveOpcodeField w ++ opcodeField w = w :=
    BitVec.extractLsb'_append_extractLsb' (w := 60) (len := 4)
  rw [← hword, hopcode, habove]
  rfl

/-- R71: the five fields are the whole word. -/
theorem eq_sampleWord {w : Word64} (hopcode : opcodeField w = 5) (hreserved0 : reserved0Field w = 0)
    (hreserved1 : reserved1Field w = 0) : w = sampleWord (rangeField w) (reseedField w) := by
  have hword : reserved1Field w ++ reseedField w ++ rangeField w ++ reserved0Field w ++ opcodeField w
      = w := by
    unfold reserved1Field reseedField rangeField reserved0Field opcodeField
    rw [BitVec.extractLsb'_append_extractLsb'_eq_extractLsb' (show 56 = 24 + 32 from rfl),
      BitVec.extractLsb'_append_extractLsb'_eq_extractLsb' (show 24 = 8 + 16 from rfl),
      BitVec.extractLsb'_append_extractLsb'_eq_extractLsb' (show 8 = 4 + 4 from rfl),
      BitVec.extractLsb'_append_extractLsb'_eq_extractLsb' (show 4 = 0 + 4 from rfl)]
    exact BitVec.extractLsb'_eq_self
  rw [hopcode, hreserved0, hreserved1] at hword
  exact hword.symm

theorem opcode_eq_seven {opc : BitVec 4} (hlegal : ¬ 8#4 ≤ opc) (h0 : opc ≠ 0#4) (h1 : opc ≠ 1#4)
    (h2 : opc ≠ 2#4) (h3 : opc ≠ 3#4) (h4 : opc ≠ 4#4) (h5 : opc ≠ 5#4) (h6 : opc ≠ 6#4) :
    opc = 7#4 := by
  bv_omega

/-- A word the decoder accepts is the encoder's word, by the branches of R77. -/
theorem cmd_eq_of_decode_eq_ok {c : Command} {i : Instr} (h : decode c = .ok i) :
    c.cmd = (encode i).cmd := by
  unfold decode at h
  split_ifs at h with hillegal h5 hreserved habove h0 h1 h2 h3 h4 h6
  · obtain rfl := Except.ok.inj h
    simp only [ne_eq, not_or, not_not] at hreserved
    exact eq_sampleWord h5 hreserved.1 hreserved.2
  all_goals
    obtain rfl := Except.ok.inj h
    rw [ne_eq, not_not] at habove
  · exact eq_bareWord h0 habove
  · exact eq_bareWord h1 habove
  · exact eq_bareWord h2 habove
  · exact eq_bareWord h3 habove
  · exact eq_bareWord h4 habove
  · exact eq_bareWord h6 habove
  · exact eq_bareWord (opcode_eq_seven hillegal h0 h1 h2 h3 h4 h5 h6) habove

theorem decode_eq_ok_iff {c : Command} {i : Instr} :
    decode c = .ok i ↔ c.cmd = (encode i).cmd ∧ i = i.withData c.data := by
  have hdecode : c.cmd = (encode i).cmd → decode c = .ok (i.withData c.data) := fun hcmd =>
    (congrArg (fun w => decode ⟨w, c.data⟩) hcmd).trans (decode_encode_cmd i c.data)
  constructor
  · intro h
    have hcmd := cmd_eq_of_decode_eq_ok h
    exact ⟨hcmd, Except.ok.inj (h.symm.trans (hdecode hcmd))⟩
  · rintro ⟨hcmd, hdata⟩
    rw [hdecode hcmd, ← hdata]

/-- Settles O24. -/
theorem acceptedWordIsTheEncoding : Obligations.AcceptedWordIsTheEncoding := by
  unfold Obligations.AcceptedWordIsTheEncoding
  intro c i h
  obtain ⟨hcmd, hdata⟩ := decode_eq_ok_iff.mp h
  refine ⟨hcmd, ?_⟩
  rintro v rfl
  exact Instr.load.inj hdata

/-! ### The number of legal words -/

/-- The opcodes of R73 whose word has no operand field. -/
def bareOpcodes : Finset (BitVec 4) := {0, 1, 2, 3, 4, 6, 7}

/-- The legal command words, by the shape of the word: the seven of R72 and SAMPLE's. -/
theorem setOf_decode_eq_ok (data : Word64) : {w : Word64 | ∃ i, decode ⟨w, data⟩ = .ok i} =
    bareWord '' bareOpcodes ∪ Set.range (fun p : Half × Word32 => sampleWord p.1 p.2) := by
  ext w
  constructor
  · rintro ⟨i, hi⟩
    obtain rfl : w = (encode i).cmd := cmd_eq_of_decode_eq_ok hi
    cases i with
    | sample range reseed => exact .inr ⟨(range, reseed), rfl⟩
    | _ => exact .inl ⟨_, by decide, rfl⟩
  · rintro (⟨opc, hopc, rfl⟩ | ⟨p, rfl⟩)
    · simp only [bareOpcodes, Finset.coe_insert, Finset.coe_singleton, Set.mem_insert_iff,
        Set.mem_singleton_iff] at hopc
      rcases hopc with rfl | rfl | rfl | rfl | rfl | rfl | rfl
      · exact ⟨_, decode_encode_cmd .nop data⟩
      · exact ⟨_, decode_encode_cmd .linear data⟩
      · exact ⟨_, decode_encode_cmd .combine data⟩
      · exact ⟨_, decode_encode_cmd .halfword data⟩
      · exact ⟨_, decode_encode_cmd .expand data⟩
      · exact ⟨_, decode_encode_cmd (.load data) data⟩
      · exact ⟨_, decode_encode_cmd .read data⟩
    · exact ⟨_, decode_sampleWord p.1 p.2 data⟩

theorem bareWord_injective : Function.Injective bareWord :=
  Function.LeftInverse.injective opcodeField_bareWord

theorem sampleWord_injective :
    Function.Injective (fun p : Half × Word32 => sampleWord p.1 p.2) := by
  refine Function.LeftInverse.injective (g := fun w => (rangeField w, reseedField w)) fun p => ?_
  obtain ⟨-, -, hrange, hreseed, -⟩ := fields_sampleWord p.1 p.2
  exact Prod.ext hrange hreseed

/-- No opcode of the seven bare words is SAMPLE's. -/
theorem disjoint_bareWords_sampleWords : Disjoint (bareWord '' bareOpcodes)
    (Set.range (fun p : Half × Word32 => sampleWord p.1 p.2)) := by
  rw [Set.disjoint_left]
  rintro _ ⟨opc, hopc, rfl⟩ ⟨p, hp⟩
  have hfive : opc = 5 := by
    rw [← opcodeField_bareWord opc, ← hp]
    exact (fields_sampleWord p.1 p.2).1
  exact absurd hopc (by rw [hfive]; decide)

theorem natCard_bitVec (n : Nat) : Nat.card (BitVec n) = 2 ^ n := by
  rw [Nat.card_eq_fintype_card, ← FinEnum.card_eq_fintypeCard, FinEnum.card_bitVec]

/-- Settles O25: the words of the two shapes are distinct, and there are 7 and `2^16 * 2^32` of them. -/
theorem numberOfLegalWords : Obligations.NumberOfLegalWords := by
  unfold Obligations.NumberOfLegalWords
  intro data
  rw [setOf_decode_eq_ok, Set.ncard_union_eq disjoint_bareWords_sampleWords,
    Set.ncard_image_of_injective _ bareWord_injective, Set.ncard_coe_finset,
    Set.ncard_range_of_injective sampleWord_injective, Nat.card_prod, natCard_bitVec, natCard_bitVec]
  rfl

/-- Settles O21: the legal words are the encoder's, the others fail one check of R77 each. -/
theorem exampleWordsDecode : Obligations.ExampleWordsDecode := by
  unfold Obligations.ExampleWordsDecode
  exact ⟨decode_encode .nop, decode_encode .linear, decode_encode .combine, decode_encode .halfword,
    decode_encode .expand, decode_encode (.sample 10 0), decode_encode (.sample 0 0),
    decode_encode (.sample 1 3), decode_encode (.sample 65535 4294967295),
    decode_encode (.load 0x0123456789ABCDEF), decode_encode .read, by decide, by decide, by decide,
    by decide, by decide⟩

end Sys2Proof
end

section
/-! SUPPORT. The assembler (30_encoding.md R81, R82): what a line emits for operands in range, how the
characters of a line become words and numbers, and how these become a line. -/

namespace Sys2Proof

theorem AsmLine.assemble_eq (line : AsmLine) :
    line.assemble = if line.wellFormed then some (line.expansion.map encode) else none := rfl

theorem AsmLine.isSome_assemble_iff (line : AsmLine) :
    line.assemble.isSome = true ↔ line.wellFormed = true := by
  rw [assemble_eq]
  split_ifs with h <;> simp [h]

theorem AsmLine.wellFormed_sample_iff {range count : Nat} :
    (AsmLine.sample range count).wellFormed = true ↔ range < 2 ^ 16 ∧ count < 2 ^ 32 := by
  simp [wellFormed]

theorem AsmLine.wellFormed_load_iff {value : Nat} :
    (AsmLine.load value).wellFormed = true ↔ value < 2 ^ 64 := by
  simp [wellFormed]

theorem AsmLine.wellFormed_uniform_iff {range : Nat} :
    (AsmLine.uniform range).wellFormed = true ↔ range < 2 ^ 16 := by
  simp [wellFormed]

theorem AsmLine.wellFormed_reseed_iff {count : Nat} :
    (AsmLine.reseed count).wellFormed = true ↔ count < 2 ^ 32 := by
  simp [wellFormed]

theorem AsmLine.wellFormed_stream_iff {seed count range : Nat} :
    (AsmLine.stream seed count range).wellFormed = true ↔
      seed < 2 ^ 64 ∧ count < 2 ^ 32 ∧ range < 2 ^ 16 := by
  simp [wellFormed, and_assoc]

theorem AsmLine.assemble_load (value : Nat) : (AsmLine.load value).assemble =
    if value < 2 ^ 64 then some [encode (.load (BitVec.ofNat 64 value))] else none :=
  if_congr wellFormed_load_iff rfl rfl

theorem AsmLine.assemble_sample (range count : Nat) : (AsmLine.sample range count).assemble =
    if range < 2 ^ 16 ∧ count < 2 ^ 32 then
      some [encode (.sample (BitVec.ofNat 16 range) (BitVec.ofNat 32 count))]
    else none :=
  if_congr wellFormed_sample_iff rfl rfl

theorem AsmLine.assemble_stream (seed count range : Nat) : (AsmLine.stream seed count range).assemble =
    if seed < 2 ^ 64 ∧ count < 2 ^ 32 ∧ range < 2 ^ 16 then
      some [encode (.load (BitVec.ofNat 64 seed)),
        encode (.sample (BitVec.ofNat 16 range) (BitVec.ofNat 32 count))]
    else none :=
  if_congr wellFormed_stream_iff rfl rfl

theorem AsmLine.assemble_uniform (range : Nat) : (AsmLine.uniform range).assemble =
    if range < 2 ^ 16 then some [encode (.sample (BitVec.ofNat 16 range) 0)] else none :=
  if_congr wellFormed_uniform_iff rfl rfl

theorem AsmLine.assemble_reseed (count : Nat) : (AsmLine.reseed count).assemble =
    if count < 2 ^ 32 then some [encode (.sample 1 (BitVec.ofNat 32 count))] else none :=
  if_congr wellFormed_reseed_iff rfl rfl

/-- The reseed count that UNIFORM does not give is 0, which is in range. -/
theorem AsmLine.assemble_uniform_eq_sample (range : Nat) :
    (AsmLine.uniform range).assemble = (AsmLine.sample range 0).assemble := by
  simp [assemble_uniform, assemble_sample]

/-- The range that RESEED does not give is 1, which is in range. -/
theorem AsmLine.assemble_reseed_eq_sample (count : Nat) :
    (AsmLine.reseed count).assemble = (AsmLine.sample 1 count).assemble := by
  simp [assemble_reseed, assemble_sample]

/-- Settles O26. -/
theorem pseudoCommandsExpand : Obligations.PseudoCommandsExpand := by
  unfold Obligations.PseudoCommandsExpand
  refine ⟨rfl, AsmLine.assemble_uniform_eq_sample, AsmLine.assemble_reseed_eq_sample,
    ?_, ?_, ?_, ?_, ?_, ?_⟩
  · intro seed n r hseed hn hr
    rw [AsmLine.assemble_stream, if_pos ⟨hseed, hn, hr⟩]
  · intro seed n r
    rw [AsmLine.isSome_assemble_iff, AsmLine.wellFormed_stream_iff]
  · intro r n hr hn
    rw [AsmLine.assemble_sample, if_pos ⟨Nat.lt_succ_of_le hr, Nat.lt_succ_of_le hn⟩]
  · intro r n
    rw [AsmLine.isSome_assemble_iff, AsmLine.wellFormed_sample_iff]
    omega
  · intro v hv
    rw [AsmLine.assemble_load, if_pos hv]
  · intro v
    rw [AsmLine.isSome_assemble_iff, AsmLine.wellFormed_load_iff]

namespace Assembler

/-! ### Numbers -/

theorem digitsValue_append {base n : Nat} {l : List Char} {soFar : Nat}
    (h : digitsValue base soFar l = some n) (l' : List Char) :
    digitsValue base soFar (l ++ l') = digitsValue base n l' := by
  induction l generalizing soFar with
  | nil => rw [List.nil_append, Option.some.inj h]
  | cons c cs ih =>
    unfold digitsValue at h
    rw [List.cons_append, digitsValue]
    split at h
    · next v hv => simpa [hv] using ih h
    · cases h

/-- The core library's digits are read back; they are 0 to 9, then `a` to `f`. -/
theorem digitValue_digitChar {base d : Nat} (hbase : base ≤ 16) (hd : d < base) :
    digitValue base d.digitChar = some d := by
  have hlist : ∀ k < 16, ∀ b ≤ 16, k < b → digitValue b k.digitChar = some k := by decide
  exact hlist d (hd.trans_le hbase) base hbase hd

theorem digitsValue_digitChar {base d : Nat} (hbase : base ≤ 16) (hd : d < base) (soFar : Nat) :
    digitsValue base soFar [d.digitChar] = some (soFar * base + d) := by
  unfold digitsValue
  rw [digitValue_digitChar hbase hd]
  rfl

/-- Reading the digits of `n` gives `n`, by induction on its digits, the last one split off. -/
theorem digitsValue_toDigits {base : Nat} (hone : 1 < base) (hbase : base ≤ 16) (n : Nat) :
    digitsValue base 0 (Nat.toDigits base n) = some n := by
  induction n using Nat.base_induction base hone with
  | single d hd =>
    rw [Nat.toDigits_of_lt_base hd, digitsValue_digitChar hbase hd, Nat.zero_mul, Nat.zero_add]
  | digit m d hd hm ih =>
    rw [← Nat.toDigits_append_toDigits hone hm hd, digitsValue_append ih, Nat.toDigits_of_lt_base hd,
      digitsValue_digitChar hbase hd, Nat.mul_comm]

theorem number_hex {w : List Char} (hw : w ≠ []) : number ('0' :: 'x' :: w) = digitsValue 16 0 w := by
  cases w with
  | nil => exact absurd rfl hw
  | cons d ds => rfl

/-- A number without an `x` in it is decimal. -/
theorem number_decimal {w : List Char} (hw : w ≠ []) (hx : 'x' ∉ w) :
    number w = digitsValue 10 0 w := by
  unfold number
  split
  · exact absurd rfl hw
  · exact absurd (by simp) hx
  · rfl

theorem number_toDigits_ten (n : Nat) : number (Nat.toDigits 10 n) = some n := by
  have hx : 'x' ∉ Nat.toDigits 10 n := fun hmem =>
    absurd (Nat.isDigit_of_mem_toDigits (by decide) (by decide) hmem) (by decide)
  rw [number_decimal Nat.toDigits_ne_nil hx]
  exact digitsValue_toDigits (by decide) (by decide) n

theorem number_toDigits_sixteen (n : Nat) : number ('0' :: 'x' :: Nat.toDigits 16 n) = some n := by
  rw [number_hex Nat.toDigits_ne_nil]
  exact digitsValue_toDigits (by decide) (by decide) n

theorem ne_nil_of_number_eq_some {w : List Char} {v : Nat} (h : number w = some v) : w ≠ [] := by
  rintro rfl
  cases h

/-! ### Words and commas -/

theorem isWord_cons_iff {c : Char} {w : List Char} : isWord (c :: w) = true ↔
    (c ≠ ' ' ∧ c ≠ '\t' ∧ c ≠ ',' ∧ c ≠ ';') ∧ isWord w = true := by
  simp [isWord, and_assoc]

theorem stripComment_append_comment (line comment : List Char) :
    stripComment (line ++ ';' :: comment) = stripComment line := by
  induction line with
  | nil => rfl
  | cons c cs ih => simp only [List.cons_append, stripComment, ih]

theorem stripComment_word_append {w : List Char} (hw : isWord w = true) (rest : List Char) :
    stripComment (w ++ rest) = w ++ stripComment rest := by
  induction w with
  | nil => rfl
  | cons c cs ih =>
    obtain ⟨⟨-, -, -, hc⟩, hcs⟩ := isWord_cons_iff.mp hw
    rw [List.cons_append, stripComment, if_neg hc, ih hcs, List.cons_append]

theorem tokens_word_append {w : List Char} (hw : isWord w = true) (soFar rest : List Char) :
    tokens soFar (w ++ rest) = tokens (soFar ++ w) rest := by
  induction w generalizing soFar with
  | nil => rw [List.append_nil, List.nil_append]
  | cons c cs ih =>
    obtain ⟨⟨hblank, htab, hcomma, -⟩, hcs⟩ := isWord_cons_iff.mp hw
    rw [List.cons_append, tokens, if_neg (by simp [hblank, htab]), if_neg hcomma, ih hcs,
      List.append_assoc, List.singleton_append]

@[simp] theorem pendingWord_nil : pendingWord [] = [] := rfl

theorem pendingWord_of_ne_nil {w : List Char} (hw : w ≠ []) : pendingWord w = [.word w] := by
  cases w with
  | nil => exact absurd rfl hw
  | cons c cs => rfl

/-- The tokens of the line without its comment. -/
def lineTokens (line : List Char) : List Token := tokens [] (stripComment line)

section
variable {w : List Char} (hw : isWord w = true) (hne : w ≠ [])
include hw hne

theorem lineTokens_word : lineTokens w = [.word w] := by
  have hstrip := stripComment_word_append hw []
  have htokens := tokens_word_append hw [] []
  simp only [List.append_nil, List.nil_append] at hstrip htokens
  unfold lineTokens
  rw [hstrip, stripComment, List.append_nil, htokens, tokens, pendingWord_of_ne_nil hne]

/-- A word, a blank and the rest of the line. -/
theorem lineTokens_word_blank (rest : List Char) :
    lineTokens (w ++ ' ' :: rest) = .word w :: lineTokens rest := by
  unfold lineTokens
  rw [stripComment_word_append hw, tokens_word_append hw, List.nil_append]
  simp [stripComment, tokens, pendingWord_of_ne_nil hne]

/-- A word, a comma with a blank after it, and the rest of the line. -/
theorem lineTokens_word_comma (rest : List Char) :
    lineTokens (w ++ ',' :: ' ' :: rest) = .word w :: .comma :: lineTokens rest := by
  unfold lineTokens
  rw [stripComment_word_append hw, tokens_word_append hw, List.nil_append]
  simp [stripComment, tokens, pendingWord_of_ne_nil hne]

end

/-! ### Lines -/

theorem operands_lineTokens_word {a : List Char} {v : Nat} (ha : isWord a = true)
    (hv : number a = some v) : operands (lineTokens a) = some [v] := by
  rw [lineTokens_word ha (ne_nil_of_number_eq_some hv), operands, hv]
  rfl

theorem operands_lineTokens_comma {a rest : List Char} {v u : Nat} {us : List Nat}
    (ha : isWord a = true) (hv : number a = some v)
    (hrest : operands (lineTokens rest) = some (u :: us)) :
    operands (lineTokens (a ++ ',' :: ' ' :: rest)) = some (v :: u :: us) := by
  rw [lineTokens_word_comma ha (ne_nil_of_number_eq_some hv), operands, hv, hrest]

theorem parseTokens_word {m : List Char} {rest : List Token} {ops : List Nat}
    (hops : operands rest = some ops) :
    parseTokens (.word m :: rest) = (lineOf (m.map Char.toUpper) ops).map some := by
  rw [parseTokens, hops]

/-- A line whose first word is `m` emits what the mnemonic and its operands say. -/
theorem assembleText_of_lineTokens {line m : List Char} {rest : List Token} {ops : List Nat}
    (htokens : lineTokens line = .word m :: rest) (hops : operands rest = some ops) :
    assembleText line = (lineOf (m.map Char.toUpper) ops).bind AsmLine.assemble := by
  unfold lineTokens at htokens
  unfold assembleText
  rw [htokens, parseTokens_word hops]
  cases lineOf (m.map Char.toUpper) ops <;> rfl

theorem ne_nil_of_map_toUpper_eq_cons {m cs : List Char} {c : Char}
    (h : m.map Char.toUpper = c :: cs) : m ≠ [] := by
  rintro rfl
  cases h

section
variable {m cs : List Char} {c : Char} (hm : isWord m = true) (hupper : m.map Char.toUpper = c :: cs)
include hm hupper

theorem assembleText_mnemonic :
    assembleText m = (lineOf (c :: cs) []).bind AsmLine.assemble := by
  rw [assembleText_of_lineTokens (lineTokens_word hm (ne_nil_of_map_toUpper_eq_cons hupper)) rfl,
    hupper]

theorem assembleText_mnemonic_operands {rest : List Char} {ops : List Nat}
    (hops : operands (lineTokens rest) = some ops) :
    assembleText (m ++ ' ' :: rest) = (lineOf (c :: cs) ops).bind AsmLine.assemble := by
  rw [assembleText_of_lineTokens
    (lineTokens_word_blank hm (ne_nil_of_map_toUpper_eq_cons hupper) rest) hops, hupper]

end

theorem assembleText_append_comment (line comment : List Char) :
    assembleText (line ++ ';' :: comment) = assembleText line := by
  unfold assembleText
  rw [stripComment_append_comment]

/-- Settles O60, a clause for each shape of line: the text gives the mnemonic and the operands, and
`AsmLine.assemble` what they emit. -/
theorem assemblyTextIsRead : Obligations.AssemblyTextIsRead := by
  unfold Obligations.AssemblyTextIsRead
  refine ⟨assembleText_append_comment, fun n => ⟨number_toDigits_ten n, number_toDigits_sixteen n⟩,
    ?_, ?_, ?_, ?_⟩
  · intro m i hm hmem
    simp only [List.mem_cons, List.not_mem_nil, or_false, Prod.mk.injEq] at hmem
    rcases hmem with ⟨hupper, rfl⟩ | ⟨hupper, rfl⟩ | ⟨hupper, rfl⟩ | ⟨hupper, rfl⟩ | ⟨hupper, rfl⟩ |
      ⟨hupper, rfl⟩ | ⟨hupper, rfl⟩
    all_goals exact assembleText_mnemonic hm hupper
  · intro m a v hm ha hv
    have hops := operands_lineTokens_word ha hv
    refine ⟨fun hupper => ?_, fun hupper => ?_, fun hupper => ?_⟩
    · exact (assembleText_mnemonic_operands hm hupper hops).trans (AsmLine.assemble_load v)
    · exact (assembleText_mnemonic_operands hm hupper hops).trans (AsmLine.assemble_uniform v)
    · exact (assembleText_mnemonic_operands hm hupper hops).trans (AsmLine.assemble_reseed v)
  · intro m a b r n hm ha hb hr hn hupper
    have hops := operands_lineTokens_comma ha hr (operands_lineTokens_word hb hn)
    exact (assembleText_mnemonic_operands hm hupper hops).trans (AsmLine.assemble_sample r n)
  · intro m a b c seed n r hm ha hb hc hseed hn hr hupper
    have hops := operands_lineTokens_comma ha hseed
      (operands_lineTokens_comma hb hn (operands_lineTokens_word hc hr))
    exact (assembleText_mnemonic_operands hm hupper hops).trans (AsmLine.assemble_stream seed n r)

end Assembler

end Sys2Proof
end

section
/-! SUPPORT. The Linear Byte Step (40_linear_step.md): its steps in closed form, and when they come back
to the byte, or to the low bits of the byte, they started from. -/

namespace Sys2Proof.Machine

/-- The map as R100 writes it. -/
theorem linearNext_eq (x : Byte) : linearNext x = x * 73 + 29 := by
  unfold linearNext
  rw [BitVec.add_comm, BitVec.mul_comm]

theorem exec_linear (s : State) :
    exec .linear s = .next ((s.withGen (linearStep s.gen)).complete (zext64 (linearStep s.gen).linear)) :=
  rfl

/-- Settles O31. -/
theorem linearResult : Obligations.LinearResult := by
  unfold Obligations.LinearResult
  intro s
  rw [exec_linear, ← linearNext_eq]
  rfl

/-! ### The closed form -/

theorem linearNext_toNat (x : Byte) : (linearNext x).toNat = (29 + 73 * x.toNat) % 2 ^ 8 := by
  simp [linearNext]

/-- `m` steps add a multiple of `29 + 72 * x`, which is odd, by the sum of the first `m` powers of 73. -/
theorem iterate_linearNext_toNat_modEq (m : Nat) (x : Byte) :
    (linearNext^[m] x).toNat ≡
      x.toNat + (29 + 72 * x.toNat) * ∑ i ∈ Finset.range m, 73 ^ i [MOD 2 ^ 8] := by
  induction m with
  | zero => exact Nat.ModEq.refl _
  | succ m ih =>
    rw [Function.iterate_succ_apply', linearNext_toNat, geom_sum_succ]
    calc (29 + 73 * (linearNext^[m] x).toNat) % 2 ^ 8
        ≡ 29 + 73 * (linearNext^[m] x).toNat [MOD 2 ^ 8] := Nat.mod_modEq _ _
      _ ≡ 29 + 73 * (x.toNat + (29 + 72 * x.toNat) * ∑ i ∈ Finset.range m, 73 ^ i) [MOD 2 ^ 8] :=
        (ih.mul_left 73).add_left 29
      _ = x.toNat + (29 + 72 * x.toNat) * (73 * ∑ i ∈ Finset.range m, 73 ^ i + 1) := by ring

/-- The sum times 72 is `73 ^ m - 1`, and as 4 divides 72, that has as many factors 2 as `72 * m`. -/
theorem emultiplicity_two_sum_pow (m : Nat) :
    emultiplicity 2 (∑ i ∈ Finset.range m, (73 : ℤ) ^ i) = emultiplicity 2 (m : ℤ) := by
  have hlift : emultiplicity 2 ((73 : ℤ) ^ m - 1 ^ m) =
      emultiplicity 2 (73 - 1 : ℤ) + emultiplicity 2 (m : ℤ) :=
    Int.two_pow_sub_pow' m (by decide) (by decide)
  have hfinite : emultiplicity 2 (73 - 1 : ℤ) ≠ ⊤ :=
    finiteMultiplicity_iff_emultiplicity_ne_top.mp (Int.finiteMultiplicity_iff.mpr (by decide))
  rw [one_pow, ← mul_geom_sum, emultiplicity_mul Int.prime_two] at hlift
  exact ENat.add_right_injective_of_ne_top hfinite hlift

theorem two_pow_dvd_sum_pow_iff (j m : Nat) :
    2 ^ j ∣ ∑ i ∈ Finset.range m, 73 ^ i ↔ 2 ^ j ∣ m := by
  have hdvd := emultiplicity_eq_emultiplicity_iff.mp (emultiplicity_two_sum_pow m) j
  exact_mod_cast hdvd

/-- From any start, the low `j` bits are those of the start after the multiples of `2 ^ j` steps and
after no other number of steps. -/
theorem iterate_linearNext_modEq_self_iff {j : Nat} (hj : j ≤ 8) (m : Nat) (x : Byte) :
    (linearNext^[m] x).toNat ≡ x.toNat [MOD 2 ^ j] ↔ 2 ^ j ∣ m := by
  have hodd : Odd (29 + 72 * x.toNat) := ⟨14 + 36 * x.toNat, by ring⟩
  have hcoprime : Nat.Coprime (2 ^ j) (29 + 72 * x.toNat) :=
    (Nat.coprime_two_left.mpr hodd).pow_left j
  have hclosed := (iterate_linearNext_toNat_modEq m x).of_dvd (Nat.pow_dvd_pow 2 hj)
  calc (linearNext^[m] x).toNat ≡ x.toNat [MOD 2 ^ j]
      ↔ x.toNat + (29 + 72 * x.toNat) * ∑ i ∈ Finset.range m, 73 ^ i ≡ x.toNat [MOD 2 ^ j] :=
        ⟨hclosed.symm.trans, hclosed.trans⟩
    _ ↔ 2 ^ j ∣ ∑ i ∈ Finset.range m, 73 ^ i := by
        rw [Nat.add_modEq_left_iff, hcoprime.dvd_mul_left]
    _ ↔ 2 ^ j ∣ m := two_pow_dvd_sum_pow_iff j m

/-! ### The whole byte -/

theorem iterate_linearNext_eq_self_iff (m : Nat) (x : Byte) : linearNext^[m] x = x ↔ 2 ^ 8 ∣ m := by
  rw [← iterate_linearNext_modEq_self_iff (Nat.le_refl 8) m x, ← BitVec.toNat_inj, Nat.ModEq,
    Nat.mod_eq_of_lt (BitVec.isLt _), Nat.mod_eq_of_lt x.isLt]

/-- Two bytes of one orbit are equal only if a multiple of 256 steps lies between them. -/
theorem iterate_linearNext_ne {j k : Nat} (hlt : j < k) (hk : k < j + 256) (x : Byte) :
    linearNext^[j] x ≠ linearNext^[k] x := by
  intro heq
  have hreturn : linearNext^[k - j] (linearNext^[j] x) = linearNext^[j] x := by
    rw [← Function.iterate_add_apply, Nat.sub_add_cancel hlt.le, heq]
  have hle : 2 ^ 8 ≤ k - j :=
    Nat.le_of_dvd (Nat.sub_pos_of_lt hlt) ((iterate_linearNext_eq_self_iff _ _).mp hreturn)
  omega

theorem iterate_linearNext_injective (x : Byte) :
    Function.Injective fun i : Fin 256 => linearNext^[i.val + 1] x := by
  refine Function.Injective.of_lt_imp_ne fun i j hlt => ?_
  have hj := j.isLt
  exact iterate_linearNext_ne (Nat.succ_lt_succ hlt) (by omega) x

/-- 256 different bytes are all there are. -/
theorem iterate_linearNext_surjective (x : Byte) :
    Function.Surjective fun i : Fin 256 => linearNext^[i.val + 1] x := by
  have hcard : Nat.card Byte ≤ Nat.card (Fin 256) := by rw [natCard_bitVec, Nat.card_fin]; decide
  exact ((iterate_linearNext_injective x).bijective_of_nat_card_le hcard).surjective

/-- Settles O32: the orbit returns after the multiples of 256 steps and not before. -/
theorem linearStepHasFullPeriod : Obligations.LinearStepHasFullPeriod := by
  unfold Obligations.LinearStepHasFullPeriod
  refine fun x => ⟨fun y => ?_, ?_, fun j k hj hlt hk => iterate_linearNext_ne hlt (by omega) x⟩
  · obtain ⟨i, hi⟩ := iterate_linearNext_surjective x y
    exact ⟨i + 1, Nat.le_add_left 1 i, i.isLt, hi⟩
  · exact (iterate_linearNext_eq_self_iff 256 (linearNext x)).mpr (dvd_refl 256)

/-! ### One bit -/

theorem toNat_modEq_two_pow_iff {w : Nat} (x y : BitVec w) (n : Nat) :
    x.toNat ≡ y.toNat [MOD 2 ^ n] ↔ ∀ i < n, x.getLsbD i = y.getLsbD i := by
  rw [Nat.ModEq, ← BitVec.toNat_setWidth, ← BitVec.toNat_setWidth, BitVec.toNat_inj,
    BitVec.eq_of_getLsbD_eq_iff]
  refine forall₂_congr fun i hi => ?_
  simp [hi]

/-- After `2 ^ k * q` steps the bits below bit `k` are those of the start, so bit `k` decides whether the
low `k + 1` bits are. -/
theorem getLsbD_iterate_linearNext_eq_iff {k : Nat} (hk : k < 8) (q : Nat) (x : Byte) :
    (linearNext^[2 ^ k * q] x).getLsbD k = x.getLsbD k ↔ 2 ∣ q := by
  have hlow : ∀ i < k, (linearNext^[2 ^ k * q] x).getLsbD i = x.getLsbD i :=
    (toNat_modEq_two_pow_iff _ _ k).mp
      ((iterate_linearNext_modEq_self_iff hk.le _ x).mpr (Nat.dvd_mul_right _ q))
  calc (linearNext^[2 ^ k * q] x).getLsbD k = x.getLsbD k
      ↔ ∀ i < k + 1, (linearNext^[2 ^ k * q] x).getLsbD i = x.getLsbD i := by
        rw [Nat.forall_lt_succ_right, and_iff_right hlow]
    _ ↔ 2 ^ (k + 1) ∣ 2 ^ k * q := by
        rw [← toNat_modEq_two_pow_iff, iterate_linearNext_modEq_self_iff hk]
    _ ↔ 2 ∣ q := by rw [pow_succ, Nat.mul_dvd_mul_iff_left (Nat.two_pow_pos k)]

/-- If `m` steps leave a bit as it is from every start, so do the multiples of `m`. -/
theorem getLsbD_iterate_linearNext_mul {k m : Nat}
    (hm : ∀ x : Byte, (linearNext^[m] x).getLsbD k = x.getLsbD k) (t : Nat) (x : Byte) :
    (linearNext^[m * t] x).getLsbD k = x.getLsbD k := by
  have hsemiconj : Function.Semiconj (fun y : Byte => y.getLsbD k) linearNext^[m] id := hm
  have hiterate := hsemiconj.iterate_right t x
  rwa [Function.iterate_id, ← Function.iterate_mul] at hiterate

theorem two_pow_succ_dvd_of_getLsbD_iterate_linearNext {k m : Nat} (hk : k < 8)
    (hm : ∀ x : Byte, (linearNext^[m] x).getLsbD k = x.getLsbD k) : 2 ^ (k + 1) ∣ m := by
  obtain rfl | hne := eq_or_ne m 0
  · exact dvd_zero _
  obtain ⟨v, q, hodd, rfl⟩ := Nat.exists_eq_two_pow_mul_odd hne
  by_contra hndvd
  have hv : v ≤ k := not_lt.mp fun hlt => hndvd ((Nat.pow_dvd_pow 2 hlt).mul_right q)
  have hmul : 2 ^ v * q * 2 ^ (k - v) = 2 ^ k * q := by
    rw [Nat.mul_right_comm, ← pow_add, Nat.add_sub_cancel' hv]
  have hbit := getLsbD_iterate_linearNext_mul hm (2 ^ (k - v)) 0
  rw [hmul, getLsbD_iterate_linearNext_eq_iff hk] at hbit
  exact hodd.not_two_dvd_nat hbit

/-- Settles O33: after `2 ^ k * q` steps bit `k` is back exactly if `q` is even, and a smaller power of 2
in `m` is made up to `2 ^ k` by a multiple of `m`. -/
theorem linearBitPeriods : Obligations.LinearBitPeriods := by
  unfold Obligations.LinearBitPeriods
  refine fun k hk m => ⟨two_pow_succ_dvd_of_getLsbD_iterate_linearNext hk, ?_⟩
  rintro ⟨c, rfl⟩ x
  rw [pow_succ, Nat.mul_assoc, getLsbD_iterate_linearNext_eq_iff hk]
  exact Nat.dvd_mul_right 2 c

end Sys2Proof.Machine
end

section
/-! SUPPORT. The arithmetic of the Byte Combiner's sub-steps (41_byte_combiner.md R112 to R127): the
xorshift as three invertible maps, the linear bytes each sub-step takes, the fixed points of the
multiply-with-carry update, and what a table match feeds into it. -/

namespace Sys2Proof.Machine

/-! ### The xorshift -/

/-- `x ^^^ f x` is one-to-one where `f` is linear over xor and moves every nonzero value: each of the
three assignments of R112 has this form. -/
theorem injective_xor_of_linear {w : Nat} {f : BitVec w → BitVec w}
    (hlinear : ∀ x y, f (x ^^^ y) = f x ^^^ f y) (hfixed : ∀ x, f x = x → x = 0#w) :
    Function.Injective (fun x => x ^^^ f x) := by
  intro x y (hxy : x ^^^ f x = y ^^^ f y)
  apply BitVec.xor_eq_zero_iff.mp
  apply hfixed
  rw [hlinear, ← BitVec.xor_eq_zero_iff]
  calc f x ^^^ f y ^^^ (x ^^^ y) = (x ^^^ f x) ^^^ (y ^^^ f y) := by ac_rfl
    _ = 0#w := BitVec.xor_eq_zero_iff.mpr hxy

theorem eq_zero_of_ushiftRight_eq_self {w n : Nat} (hn : 0 < n) {x : BitVec w} (h : x >>> n = x) :
    x = 0#w := by
  apply BitVec.eq_of_toNat_eq
  have hdiv : x.toNat / 2 ^ n = x.toNat := by
    rw [← Nat.shiftRight_eq_div_pow, ← BitVec.toNat_ushiftRight, h]
  by_contra hne
  have hlt : x.toNat / 2 ^ n < x.toNat :=
    Nat.div_lt_self (Nat.pos_of_ne_zero hne) (Nat.one_lt_two_pow hn.ne')
  omega

/-- The low `n` bits of `x <<< n` are zero, and every other bit is one further down. -/
theorem eq_zero_of_shiftLeft_eq_self {w n : Nat} (hn : 0 < n) {x : BitVec w} (h : x <<< n = x) :
    x = 0#w := by
  apply BitVec.eq_of_getLsbD_eq
  intro i
  induction i using Nat.strong_induction_on with
  | _ i ih =>
    intro hi
    rw [← h, BitVec.getLsbD_shiftLeft]
    by_cases hin : i < n
    · simp [hin]
    · rw [ih (i - n) (by omega) (by omega)]
      simp

theorem injective_xor_ushiftRight {w n : Nat} (hn : 0 < n) :
    Function.Injective (fun x : BitVec w => x ^^^ (x >>> n)) :=
  injective_xor_of_linear (fun x y => BitVec.ushiftRight_xor_distrib x y n)
    (fun _ => eq_zero_of_ushiftRight_eq_self hn)

theorem injective_xor_shiftLeft {w n : Nat} (hn : 0 < n) :
    Function.Injective (fun x : BitVec w => x ^^^ (x <<< n)) :=
  injective_xor_of_linear (fun x y => BitVec.shiftLeft_xor_distrib x y n)
    (fun _ => eq_zero_of_shiftLeft_eq_self hn)

theorem xorshift_eq_comp : xorshift =
    (fun x : Word32 => x ^^^ (x >>> 23)) ∘ (fun x : Word32 => x ^^^ (x <<< 9)) ∘
      (fun x : Word32 => x ^^^ (x >>> 8)) := rfl

theorem xorshift_injective : Function.Injective xorshift := by
  rw [xorshift_eq_comp]
  exact (injective_xor_ushiftRight (by omega)).comp
    ((injective_xor_shiftLeft (by omega)).comp (injective_xor_ushiftRight (by omega)))

theorem xorshift_zero : xorshift 0 = 0 := by decide

theorem xorshift_ne_zero {x : Word32} (hx : x ≠ 0) : xorshift x ≠ 0 :=
  xorshift_zero ▸ xorshift_injective.ne hx

/-- Settles O41. -/
theorem xorshiftIsABijection : Obligations.XorshiftIsABijection := by
  unfold Obligations.XorshiftIsABijection
  exact ⟨xorshift_zero, Finite.injective_iff_bijective.mp xorshift_injective, fun _ => xorshift_ne_zero⟩

/-! ### The fields each sub-step leaves -/

@[simp] theorem linearStep_shift (g : GenState) : (linearStep g).shift = g.shift := rfl
@[simp] theorem linearStep_current (g : GenState) : (linearStep g).current = g.current := rfl
@[simp] theorem linearStep_prev (g : GenState) : (linearStep g).prev = g.prev := rfl
@[simp] theorem linearStep_linear (g : GenState) : (linearStep g).linear = linearNext g.linear := rfl

@[simp] theorem stepShift_shift (g : GenState) : (stepShift g).shift = xorshift g.shift := rfl
@[simp] theorem stepShift_linear (g : GenState) : (stepShift g).linear = g.linear := rfl

@[simp] theorem normalizeCarry_shift (g : GenState) : (normalizeCarry g).shift = g.shift := rfl
@[simp] theorem normalizeCarry_linear (g : GenState) : (normalizeCarry g).linear = g.linear := rfl

@[simp] theorem mwcUpdate_shift (g : GenState) : (mwcUpdate g).shift = g.shift := rfl
@[simp] theorem mwcUpdate_prev (g : GenState) : (mwcUpdate g).prev = g.current := rfl
@[simp] theorem mwcUpdate_linear (g : GenState) : (mwcUpdate g).linear = g.linear := rfl

@[simp] theorem combine_fst (p : Params) (g : GenState) :
    (combine p g).1 = combinedByte p (combineState p g) := rfl
@[simp] theorem combine_snd (p : Params) (g : GenState) : (combine p g).2 = combineState p g := rfl

/-! ### What `Combine()` leaves in `shift` -/

theorem toNat_append_eq_add {m n : Nat} (x : BitVec m) (y : BitVec n) :
    (x ++ y).toNat = x.toNat * 2 ^ n + y.toNat := by
  rw [BitVec.toNat_append, ← Nat.shiftLeft_add_eq_or_of_lt y.isLt, Nat.shiftLeft_eq]

theorem toNat_append_bytes (a b c d : Byte) : (a ++ b ++ c ++ d).toNat =
    a.toNat * 2 ^ 24 + b.toNat * 2 ^ 16 + c.toNat * 2 ^ 8 + d.toNat := by
  simp only [toNat_append_eq_add]
  omega

theorem append_bytes_eq_zero {a b c d : Byte} (h : a ++ b ++ c ++ d = 0#32) : a = 0 ∧ b = 0 := by
  have hsum := congrArg BitVec.toNat h
  rw [toNat_append_bytes, BitVec.toNat_ofNat] at hsum
  have ha : a.toNat = 0 := by omega
  have hb : b.toNat = 0 := by omega
  exact ⟨BitVec.eq_of_toNat_eq ha, BitVec.eq_of_toNat_eq hb⟩

theorem refillShift_of_eq_zero {g : GenState} (h : g.shift = 0) :
    refillShift g = { g with
      shift := linearNext g.linear ++ linearNext^[2] g.linear ++ linearNext^[3] g.linear ++
        linearNext^[4] g.linear
      linear := linearNext^[4] g.linear } := by
  unfold refillShift
  rw [if_pos h]
  rfl

theorem refillShift_of_ne_zero {g : GenState} (h : g.shift ≠ 0) : refillShift g = g := if_neg h

/-- Two linear bytes in a row are not both zero, so four of them make a nonzero `shift`. -/
theorem refillShift_shift_ne_zero (g : GenState) : (refillShift g).shift ≠ 0 := by
  by_cases h : g.shift = 0
  · rw [refillShift_of_eq_zero h]
    intro hzero
    obtain ⟨hfirst, hsecond⟩ := append_bytes_eq_zero hzero
    have hnext : linearNext (linearNext g.linear) = 0 := hsecond
    rw [hfirst] at hnext
    exact absurd hnext (by decide)
  · rwa [refillShift_of_ne_zero h]

/-- `LinearStep()` for the three bytes of R115, then the fields that are overwritten. -/
theorem escapeDegenerate_of_degenerate {g : GenState} (h : degenerate g = true) :
    escapeDegenerate g = { g with
      prev := linearNext g.linear
      carry := carryBelow210 (linearNext^[2] g.linear)
      current := linearNext^[3] g.linear
      linear := linearNext^[3] g.linear } := by
  unfold escapeDegenerate
  rw [if_pos h]
  rfl

theorem escapeDegenerate_shift (g : GenState) : (escapeDegenerate g).shift = g.shift := by
  cases h : degenerate g with
  | false => rw [escapeDegenerate_of_not h]
  | true => rw [escapeDegenerate_of_degenerate h]

theorem beforeLookup_shift (g : GenState) : (beforeLookup g).shift = xorshift (refillShift g).shift := by
  unfold beforeLookup
  rw [escapeDegenerate_shift, normalizeCarry_shift, stepShift_shift]

/-- The lookup replaces the triple and nothing else. -/
theorem escapeCycle_eq (p : Params) (g : GenState) : escapeCycle p g = { g with
    prev := (tripleOf (escapeCycle p g)).prev
    current := (tripleOf (escapeCycle p g)).current
    carry := (tripleOf (escapeCycle p g)).carry } := by
  unfold escapeCycle
  split <;> rfl

@[simp] theorem escapeCycle_shift (p : Params) (g : GenState) : (escapeCycle p g).shift = g.shift := by
  rw [escapeCycle_eq]

@[simp] theorem escapeCycle_linear (p : Params) (g : GenState) : (escapeCycle p g).linear = g.linear := by
  rw [escapeCycle_eq]

theorem combineState_shift (p : Params) (g : GenState) :
    (combineState p g).shift = xorshift (refillShift g).shift := by
  rw [combineState_eq, linearStep_shift, mwcUpdate_shift, escapeCycle_shift, beforeLookup_shift]

/-- Settles O35. -/
theorem combineLeavesShiftNonzero : Obligations.CombineLeavesShiftNonzero := by
  unfold Obligations.CombineLeavesShiftNonzero
  intro s t h
  rw [exec_combine] at h
  injection h with h
  rw [← h, State.complete_gen, State.withGen_gen, combineState_shift]
  exact xorshift_ne_zero (refillShift_shift_ne_zero s.gen)

/-! ### The linear bytes -/

theorem refillShift_linear (g : GenState) :
    (refillShift g).linear = linearNext^[if g.shift = 0 then 4 else 0] g.linear := by
  split
  · next h => rw [refillShift_of_eq_zero h]
  · next h => rw [refillShift_of_ne_zero h]; rfl

theorem escapeDegenerate_linear (g : GenState) :
    (escapeDegenerate g).linear = linearNext^[if degenerate g = true then 3 else 0] g.linear := by
  split
  · next h => rw [escapeDegenerate_of_degenerate h]
  · next h => rw [escapeDegenerate_of_not (by simpa using h)]; rfl

/-- Sub-steps 1 and 2 leave the triple alone, so the test of R115 may be made before them. -/
theorem degenerate_normalizeCarry_stepShift_refillShift (g : GenState) :
    degenerate (normalizeCarry (stepShift (refillShift g))) = degenerate (normalizeCarry g) := by
  by_cases h : g.shift = 0
  · rw [refillShift_of_eq_zero h]
    rfl
  · rw [refillShift_of_ne_zero h]
    rfl

theorem beforeLookup_linear (g : GenState) : (beforeLookup g).linear =
    linearNext^[if degenerate (normalizeCarry g) = true then 3 else 0]
      (linearNext^[if g.shift = 0 then 4 else 0] g.linear) := by
  unfold beforeLookup
  rw [escapeDegenerate_linear, degenerate_normalizeCarry_stepShift_refillShift, normalizeCarry_linear,
    stepShift_linear, refillShift_linear]

theorem combineState_linear (p : Params) (g : GenState) :
    (combineState p g).linear = linearNext (beforeLookup g).linear := by
  rw [combineState_eq, linearStep_linear, mwcUpdate_linear, escapeCycle_linear]

/-- Settles O40: the bytes of sub-steps 1, 3b and 4. -/
theorem linearBytesPerCombine : Obligations.LinearBytesPerCombine := by
  unfold Obligations.LinearBytesPerCombine
  intro p g
  rw [combine_snd, combineState_linear, beforeLookup_linear, ← Function.iterate_add_apply,
    ← Function.iterate_succ_apply' linearNext]
  congr 1
  omega

/-! ### The multiply-with-carry update -/

theorem mwcUpdate_current_toNat (g : GenState) :
    (mwcUpdate g).current.toNat = (210 * g.prev.toNat + g.carry.toNat) % 256 := by
  unfold mwcUpdate
  rw [BitVec.extractLsb'_toNat, mwcProduct_toNat, Nat.shiftRight_zero]

theorem tripleOf_eq_iff {g : GenState} {t : Triple} : tripleOf g = t ↔
    g.prev.toNat = t.prev.toNat ∧ g.current.toNat = t.current.toNat ∧ g.carry.toNat = t.carry.toNat := by
  cases t
  simp only [tripleOf, Triple.mk.injEq, BitVec.toNat_inj]

theorem degenerate_iff {g : GenState} : degenerate g = true ↔
    g.carry.toNat + g.prev.toNat + g.current.toNat = 0 ∨
      g.carry.toNat + g.prev.toNat + g.current.toNat = 719 := by
  simp only [degenerate, Bool.or_eq_true, decide_eq_true_eq]
  rfl

/-- The sums 0 and 719 are the least and the greatest of a normalized triple. -/
theorem degenerate_iff_tripleOf {g : GenState} (hg : g.carry.toNat ≤ 209) :
    degenerate g = true ↔ tripleOf g = ⟨0, 0, 0⟩ ∨ tripleOf g = ⟨255, 255, 209⟩ := by
  have hprev := g.prev.isLt
  have hcurrent := g.current.isLt
  simp only [degenerate_iff, tripleOf_eq_iff, BitVec.ofNat_eq_ofNat, BitVec.toNat_ofNat]
  omega

/-- A fixed point has `current = prev` and `210 * prev + carry = 256 * carry + prev`, so
`209 * prev = 255 * carry`, where 209 and 255 have no common factor. -/
theorem tripleOf_mwcUpdate_eq_self_iff {g : GenState} (hg : g.carry.toNat ≤ 209) :
    tripleOf (mwcUpdate g) = tripleOf g ↔ tripleOf g = ⟨0, 0, 0⟩ ∨ tripleOf g = ⟨255, 255, 209⟩ := by
  have hprev := g.prev.isLt
  simp only [tripleOf_eq_iff, mwcUpdate_prev, mwcUpdate_current_toNat, mwcUpdate_carry_toNat,
    BitVec.ofNat_eq_ofNat, BitVec.toNat_ofNat]
  simp only [tripleOf]
  omega

/-- Settles O38. -/
theorem degeneratePointsAreTheFixedPoints : Obligations.DegeneratePointsAreTheFixedPoints := by
  unfold Obligations.DegeneratePointsAreTheFixedPoints
  intro g hg
  have hdegenerate := degenerate_iff_tripleOf hg
  exact ⟨hdegenerate, hdegenerate.trans (tripleOf_mwcUpdate_eq_self_iff hg).symm⟩

/-- The triple after `Combine()` is the update of the triple the lookup leaves. -/
theorem combineState_triple {p : Params} {g : GenState} {t : Triple}
    (h : tripleOf (escapeCycle p (beforeLookup g)) = t) :
    (combineState p g).prev = t.current ∧
      (combineState p g).current.toNat = (210 * t.prev.toNat + t.carry.toNat) % 256 ∧
      (combineState p g).carry.toNat = (210 * t.prev.toNat + t.carry.toNat) / 256 := by
  subst h
  rw [combineState_eq, linearStep_prev, linearStep_current, linearStep_carry, mwcUpdate_prev]
  exact ⟨rfl, mwcUpdate_current_toNat _, mwcUpdate_carry_toNat _⟩

/-- Settles O39: no entry occurs twice, so the lookup finds entry `i` and takes the next one. -/
theorem cycleEscapeContinuesFromTheSuccessor : Obligations.CycleEscapeContinuesFromTheSuccessor := by
  unfold Obligations.CycleEscapeContinuesFromTheSuccessor
  intro s i e hi he
  have hlookup : successorIn (escapeTableFor s.params (beforeLookup s.gen)).entries
      (tripleOf (beforeLookup s.gen)) = some e :=
    (successorIn_of_getElem? (EscapeTable.nodup _) hi).trans he
  exact ⟨_, exec_combine s, combineState_triple (tripleOf_escapeCycle_of_some hlookup)⟩

/-! ### The operators -/

theorem setWidth_sub_of_le {w i : Nat} (h : i ≤ w) (x y : BitVec w) :
    (x - y).setWidth i = x.setWidth i - y.setWidth i :=
  eq_sub_of_add_eq (by rw [← BitVec.setWidth_add _ _ h, BitVec.sub_add_cancel])

/-- Settles O42: truncation commutes with each operator, and gives back the widened byte. -/
theorem truncationBeforeOrAfterTheOperator : Obligations.TruncationBeforeOrAfterTheOperator := by
  unfold Obligations.TruncationBeforeOrAfterTheOperator
  intro x c
  have hbyte : (c.setWidth 32).setWidth 8 = c := by simp
  have hle : 8 ≤ 32 := by decide
  rw [BitVec.setWidth_add _ _ hle, BitVec.setWidth_xor, setWidth_sub_of_le hle, setWidth_sub_of_le hle, hbyte]
  exact ⟨rfl, rfl, rfl, rfl⟩

end Sys2Proof.Machine
end

section
/-! SUPPORT. `Combine()` over natural numbers (41_byte_combiner.md R124): the reference cut into the
sub-steps it is composed of, and for each of them that it computes the numbers of the machine's sub-step. -/

namespace Sys2Proof.Reference

open Sys2Proof.Machine

/-! ### The sub-steps of the reference -/

/-- Sub-step 1 (R111). -/
def refilled (f : Fields) : Fields :=
  if f.shift = 0 then
    let a := linearStep f
    let b := linearStep a
    let c := linearStep b
    let d := linearStep c
    { d with shift := a.linear * 2 ^ 24 + b.linear * 2 ^ 16 + c.linear * 2 ^ 8 + d.linear }
  else f

/-- The three assignments of R112. -/
def xorshifted (x : Nat) : Nat :=
  let x1 := x ^^^ (x / 2 ^ 8)
  let x2 := x1 ^^^ (x1 * 2 ^ 9 % 2 ^ 32)
  x2 ^^^ (x2 / 2 ^ 23)

/-- Sub-steps 2 and 3a (R112, R114). -/
def shiftStepped (f : Fields) : Fields :=
  { f with shift := xorshifted f.shift, carry := below210 f.carry }

/-- Sub-step 3b (R115). -/
def escaped (f : Fields) : Fields :=
  if f.carry + f.prev + f.current = 0 ∨ f.carry + f.prev + f.current = 719 then
    let a := linearStep f
    let b := linearStep a
    let c := linearStep b
    { c with prev := a.linear, carry := below210 b.linear, current := c.linear }
  else f

/-- The triple sub-step 3c leaves (R116), in the order `(prev, current, carry)`. -/
def lookedUp (p : Params) (f : Fields) : Nat × Nat × Nat :=
  let table := if f.prev = 0 ∧ f.current = 0 then p.startTable else p.cycleTable
  (nextEntry (table.entries.map entryOf) (f.prev, f.current, f.carry)).getD (f.prev, f.current, f.carry)

/-- Sub-steps 3d and 4 (R117, R118) on the triple `t`. -/
def updated (f : Fields) (t : Nat × Nat × Nat) : Fields :=
  linearStep { f with
    prev := t.2.1
    current := (210 * t.1 + t.2.2) % 2 ^ 8
    carry := (210 * t.1 + t.2.2) / 2 ^ 8 }

/-- The operator of a code, on the shifted byte and `current` (R121). -/
def operated (code sh c : Nat) : Nat :=
  match code with
  | 0 => (sh + c) % 2 ^ 8
  | 1 => sh ^^^ c
  | 2 => (sh + 2 ^ 8 - c) % 2 ^ 8
  | _ => (c + 2 ^ 8 - sh) % 2 ^ 8

/-- Sub-steps 5 and 6 (R119 to R121). -/
def combinedByte (p : Params) (f : Fields) : Nat :=
  operated (f.linear / 2 ^ p.selectors.opLsb % 4)
    (f.shift / 2 ^ (8 * (f.linear / 2 ^ p.selectors.amtLsb % 4)) % 2 ^ 8) f.current

/-- The fields after sub-step 3b. -/
def beforeLookup (f : Fields) : Fields := escaped (shiftStepped (refilled f))

/-- The fields after sub-step 4. -/
def combineFields (p : Params) (f : Fields) : Fields :=
  updated (beforeLookup f) (lookedUp p (beforeLookup f))

theorem combine_eq (p : Params) (f : Fields) :
    combine p f = (combinedByte p (combineFields p f), combineFields p f) := rfl

/-! ### The machine's sub-steps compute them -/

@[simp] theorem fieldsOf_shift (g : GenState) : (fieldsOf g).shift = g.shift.toNat := rfl
@[simp] theorem fieldsOf_carry (g : GenState) : (fieldsOf g).carry = g.carry.toNat := rfl
@[simp] theorem fieldsOf_current (g : GenState) : (fieldsOf g).current = g.current.toNat := rfl
@[simp] theorem fieldsOf_prev (g : GenState) : (fieldsOf g).prev = g.prev.toNat := rfl
@[simp] theorem fieldsOf_linear (g : GenState) : (fieldsOf g).linear = g.linear.toNat := rfl

theorem fieldsOf_linearStep (g : GenState) : fieldsOf (Machine.linearStep g) = linearStep (fieldsOf g) := by
  simp only [fieldsOf, linearStep, linearStep_linear, linearNext_toNat]
  rfl

theorem fieldsOf_refillShift (g : GenState) : fieldsOf (refillShift g) = refilled (fieldsOf g) := by
  unfold refilled
  by_cases h : g.shift = 0
  · have h' : (fieldsOf g).shift = 0 := congrArg BitVec.toNat h
    rw [refillShift_of_eq_zero h, if_pos h']
    simp only [← fieldsOf_linearStep, fieldsOf_linear]
    rw [← toNat_append_bytes]
    rfl
  · have h' : (fieldsOf g).shift ≠ 0 := fun h0 => h (BitVec.eq_of_toNat_eq h0)
    rw [refillShift_of_ne_zero h, if_neg h']

theorem xorshift_toNat (x : Word32) : (xorshift x).toNat = xorshifted x.toNat := by
  simp only [xorshift, BitVec.toNat_xor, BitVec.toNat_ushiftRight, BitVec.toNat_shiftLeft,
    Nat.shiftRight_eq_div_pow, Nat.shiftLeft_eq]
  rfl

theorem carryBelow210_toNat (c : Byte) : (carryBelow210 c).toNat = below210 c.toNat := by
  have hle : 210#8 ≤ c ↔ 210 ≤ c.toNat := by rw [BitVec.le_def, BitVec.toNat_ofNat]
  unfold carryBelow210 below210
  by_cases h : 210#8 ≤ c
  · rw [if_pos h, if_pos (hle.mp h), BitVec.toNat_sub_of_le h, BitVec.toNat_ofNat]
  · rw [if_neg h, if_neg (fun h' => h (hle.mpr h'))]

theorem fieldsOf_stepShift (g : GenState) :
    fieldsOf (normalizeCarry (stepShift g)) = shiftStepped (fieldsOf g) := by
  unfold shiftStepped
  rw [fieldsOf_shift, fieldsOf_carry, ← xorshift_toNat, ← carryBelow210_toNat]
  rfl

theorem fieldsOf_escapeDegenerate (g : GenState) :
    fieldsOf (escapeDegenerate g) = escaped (fieldsOf g) := by
  unfold escaped
  rw [fieldsOf_carry, fieldsOf_prev, fieldsOf_current]
  by_cases h : degenerate g = true
  · rw [if_pos (degenerate_iff.mp h), escapeDegenerate_of_degenerate h]
    simp only [← fieldsOf_linearStep, fieldsOf_linear, ← carryBelow210_toNat]
    rfl
  · rw [if_neg (fun h' => h (degenerate_iff.mpr h')), escapeDegenerate_of_not (by simpa using h)]

theorem fieldsOf_beforeLookup (g : GenState) :
    fieldsOf (Machine.beforeLookup g) = beforeLookup (fieldsOf g) := by
  unfold Machine.beforeLookup beforeLookup
  rw [fieldsOf_escapeDegenerate, fieldsOf_stepShift, fieldsOf_refillShift]

/-- A one-to-one renaming of the entries keeps the successor. -/
theorem nextEntry_map {α β : Type} [DecidableEq α] [DecidableEq β] {f : α → β}
    (hf : Function.Injective f) (table : List α) (x : α) :
    nextEntry (table.map f) (f x) = (successorIn table x).map f := by
  unfold nextEntry
  by_cases hx : x ∈ table
  · have hpred : (fun y => decide (y = f x)) ∘ f = fun y => y == x := by
      funext y
      simp [hf.eq_iff, beq_eq_decide]
    have hindex : table.idxOf? x = some (table.findIdx (fun y => y == x)) :=
      List.findIdx?_eq_some_of_exists ⟨x, hx, beq_self_eq_true x⟩
    rw [if_pos (List.mem_map_of_mem hx), List.findIdx_map, hpred]
    simp [successorIn, hindex]
  · rw [successorIn_of_not_mem hx, if_neg (fun h => hx ((List.mem_map_of_injective hf).mp h))]
    rfl

theorem entryOf_injective : Function.Injective entryOf := by
  rintro ⟨prev, current, carry⟩ ⟨prev', current', carry'⟩ h
  simpa only [entryOf, Prod.mk.injEq, Triple.mk.injEq, BitVec.toNat_inj] using h

theorem escapeTableFor_eq (p : Params) (g : GenState) : escapeTableFor p g =
    if (fieldsOf g).prev = 0 ∧ (fieldsOf g).current = 0 then p.startTable else p.cycleTable := by
  unfold escapeTableFor
  simp only [fieldsOf, ← BitVec.toNat_inj]
  rfl

theorem entryOf_escapeCycle (p : Params) (g : GenState) :
    entryOf (tripleOf (escapeCycle p g)) = lookedUp p (fieldsOf g) := by
  have hlookup : lookedUp p (fieldsOf g) =
      ((successorIn (escapeTableFor p g).entries (tripleOf g)).map entryOf).getD (entryOf (tripleOf g)) := by
    rw [← nextEntry_map entryOf_injective, escapeTableFor_eq]
    rfl
  rw [hlookup]
  cases h : successorIn (escapeTableFor p g).entries (tripleOf g) with
  | none => rw [escapeCycle_of_none h]; rfl
  | some t => rw [tripleOf_escapeCycle_of_some h]; rfl

/-- The update reads the triple and passes `shift` and `linear` on. -/
theorem fieldsOf_mwcUpdate (g : GenState) :
    fieldsOf (Machine.linearStep (mwcUpdate g)) = updated (fieldsOf g) (entryOf (tripleOf g)) := by
  rw [fieldsOf_linearStep]
  unfold updated
  congr 1
  simp only [fieldsOf, mwcUpdate_shift, mwcUpdate_carry_toNat, mwcUpdate_current_toNat, mwcUpdate_prev,
    mwcUpdate_linear]
  rfl

theorem updated_escapeCycle (p : Params) (g : GenState) (t : Nat × Nat × Nat) :
    updated (fieldsOf (escapeCycle p g)) t = updated (fieldsOf g) t := by
  simp only [updated, fieldsOf, escapeCycle_shift, escapeCycle_linear]

theorem fieldsOf_combineState (p : Params) (g : GenState) :
    fieldsOf (combineState p g) = combineFields p (fieldsOf g) := by
  unfold combineFields
  rw [combineState_eq, fieldsOf_mwcUpdate, updated_escapeCycle, entryOf_escapeCycle, fieldsOf_beforeLookup]

theorem selector_toNat (l : Byte) (lsb : Nat) : (l.extractLsb' lsb 2).toNat = l.toNat / 2 ^ lsb % 4 := by
  rw [BitVec.extractLsb'_toNat, Nat.shiftRight_eq_div_pow]

theorem combineOpOf_apply_toNat (code : BitVec 2) (sh c : Byte) :
    ((combineOpOf code).apply sh c).toNat = operated code.toNat sh.toNat c.toNat := by
  have hsh := sh.isLt
  have hc := c.isLt
  obtain rfl | rfl | rfl | rfl : code = 0#2 ∨ code = 1#2 ∨ code = 2#2 ∨ code = 3#2 := by
    revert code
    decide
  · exact BitVec.toNat_add sh c
  · exact BitVec.toNat_xor sh c
  · change (sh - c).toNat = (sh.toNat + 2 ^ 8 - c.toNat) % 2 ^ 8
    rw [BitVec.toNat_sub]
    congr 1
    omega
  · change (c - sh).toNat = (c.toNat + 2 ^ 8 - sh.toNat) % 2 ^ 8
    rw [BitVec.toNat_sub]
    congr 1
    omega

theorem shiftedByte_toNat (p : Params) (g : GenState) : (shiftedByte p g).toNat =
    g.shift.toNat / 2 ^ (8 * (g.linear.toNat / 2 ^ p.selectors.amtLsb % 4)) % 2 ^ 8 := by
  unfold shiftedByte shiftAmount
  rw [BitVec.toNat_setWidth, BitVec.toNat_ushiftRight, Nat.shiftRight_eq_div_pow, selector_toNat]

theorem combinedByte_toNat (p : Params) (g : GenState) :
    (Machine.combinedByte p g).toNat = combinedByte p (fieldsOf g) := by
  unfold Machine.combinedByte selectedOp
  rw [combineOpOf_apply_toNat, selector_toNat, shiftedByte_toNat]
  rfl

/-- The reference computes what the machine's `Combine()` does. -/
theorem combine_fieldsOf (p : Params) (g : GenState) :
    combine p (fieldsOf g) = ((Machine.combine p g).1.toNat, fieldsOf (Machine.combine p g).2) := by
  rw [combine_eq, ← fieldsOf_combineState, ← combinedByte_toNat, combine_fst, combine_snd]

end Sys2Proof.Reference

namespace Sys2Proof.Machine

theorem zext64_toNat {n : Nat} (hn : n ≤ 64) (v : BitVec n) : (zext64 v).toNat = v.toNat :=
  BitVec.toNat_setWidth_of_le hn

/-- Settles O34, sub-step by sub-step. -/
theorem combineMatchesItsRule : Obligations.CombineMatchesItsRule := by
  unfold Obligations.CombineMatchesItsRule
  intro s
  refine ⟨combineState s.params s.gen, zext64 (combinedByte s.params (combineState s.params s.gen)),
    exec_combine s, ?_⟩
  rw [Reference.combine_fieldsOf, zext64_toNat (by decide)]
  rfl

end Sys2Proof.Machine
end

section
/-! SUPPORT. The Halfword Generator (42_halfword.md): what the trigger check does, the sixteen-bit maps
the buffer goes through, each one-to-one, and the period of the congruential step. -/

namespace Sys2Proof.Machine

/-! ### The trigger check -/

theorem checkTrigger_of_none {p : Params} {g : GenState}
    (h : successorIn p.triggers.values (g.pack p.layout) = none) : checkTrigger p g = g := by
  unfold checkTrigger
  rw [h]

theorem checkTrigger_of_some {p : Params} {g : GenState} {v : Word64}
    (h : successorIn p.triggers.values (g.pack p.layout) = some v) :
    checkTrigger p g = GenState.unpack p.layout v := by
  unfold checkTrigger
  rw [h]

/-- Settles O44: no trigger occurs twice, so the lookup finds trigger `i` and takes the next one. -/
theorem triggerReplacesTheState : Obligations.TriggerReplacesTheState := by
  unfold Obligations.TriggerReplacesTheState
  refine fun p g => ⟨fun i _ hi => ?_, fun hnot => checkTrigger_of_none (successorIn_of_not_mem hnot)⟩
  have hlength := TriggerTable.length_eq p.triggers
  have hnext : (i + 1) % 4 < p.triggers.values.length := by
    rw [hlength]
    exact Nat.mod_lt _ (by decide)
  have hlookup := successorIn_of_getElem? (TriggerTable.nodup p.triggers) hi
  rw [hlength, List.getElem?_eq_getElem hnext] at hlookup
  rw [checkTrigger_of_some hlookup, GenState.pack_unpack, List.getElem?_eq_getElem hnext]

/-! ### The maps of the buffer -/

theorem mul_injective_of_odd {w : Nat} {m : BitVec w} (hm : Odd m.toNat) :
    Function.Injective (fun x : BitVec w => m * x) := by
  intro x y (hxy : m * x = m * y)
  have hcoprime : Nat.Coprime (2 ^ w) m.toNat := (Nat.coprime_two_left.mpr hm).pow_left w
  have hmod : m.toNat * x.toNat ≡ m.toNat * y.toNat [MOD 2 ^ w] := by
    rw [Nat.ModEq, ← BitVec.toNat_mul, hxy, BitVec.toNat_mul]
  exact BitVec.eq_of_toNat_eq ((hmod.cancel_left_of_coprime hcoprime).eq_of_lt_of_lt x.isLt y.isLt)

theorem bufferRound_injective : Function.Injective bufferRound :=
  (add_right_injective (0x4321 : Half)).comp (mul_injective_of_odd (by decide))

theorem bufferRounds_eq_iterate (n : Nat) : bufferRounds n = bufferRound^[n] := by
  induction n with
  | zero => rfl
  | succ n ih =>
    funext buf
    rw [bufferRounds, ih, Function.iterate_succ_apply]

theorem two_pow_sixteen_eq (r : BitVec 4) : 2 ^ 16 = 2 ^ (16 - r.toNat) * 2 ^ r.toNat := by
  rw [← pow_add, Nat.sub_add_cancel (by omega)]

theorem half_toNat_div_lt (x : Half) (r : BitVec 4) : x.toNat / 2 ^ (16 - r.toNat) < 2 ^ r.toNat :=
  Nat.div_lt_of_lt_mul (two_pow_sixteen_eq r ▸ x.isLt)

/-- The upper `r` bits go to the bottom, the others up by `r` (R11). -/
theorem rotl16_toNat (x : Half) (r : BitVec 4) : (rotl16 x r).toNat =
    x.toNat % 2 ^ (16 - r.toNat) * 2 ^ r.toNat + x.toNat / 2 ^ (16 - r.toNat) := by
  unfold rotl16
  split
  · next h =>
    subst h
    change x.toNat = x.toNat % 2 ^ 16 * 1 + x.toNat / 2 ^ 16
    rw [Nat.mod_eq_of_lt x.isLt, Nat.div_eq_of_lt x.isLt, Nat.mul_one, Nat.add_zero]
  · rw [BitVec.toNat_or, BitVec.toNat_shiftLeft, BitVec.toNat_ushiftRight, Nat.shiftRight_eq_div_pow,
      Nat.shiftLeft_eq, two_pow_sixteen_eq r, Nat.mul_mod_mul_right, ← Nat.shiftLeft_eq,
      Nat.shiftLeft_add_eq_or_of_lt (half_toNat_div_lt x r)]

/-- Quotient and remainder by `2 ^ r` of the rotated value give the two parts back. -/
theorem rotl16_toNat_div_mod (x : Half) (r : BitVec 4) :
    (rotl16 x r).toNat / 2 ^ r.toNat = x.toNat % 2 ^ (16 - r.toNat) ∧
      (rotl16 x r).toNat % 2 ^ r.toNat = x.toNat / 2 ^ (16 - r.toNat) := by
  rw [Nat.div_mod_unique (Nat.two_pow_pos _), rotl16_toNat, Nat.mul_comm, Nat.add_comm]
  exact ⟨rfl, half_toNat_div_lt x r⟩

theorem rotl16_injective (r : BitVec 4) : Function.Injective (fun x => rotl16 x r) := by
  intro x y (hxy : rotl16 x r = rotl16 y r)
  obtain ⟨hxlow, hxhigh⟩ := rotl16_toNat_div_mod x r
  obtain ⟨hylow, hyhigh⟩ := rotl16_toNat_div_mod y r
  apply BitVec.eq_of_toNat_eq
  rw [← Nat.div_add_mod x.toNat (2 ^ (16 - r.toNat)), ← hxlow, ← hxhigh, hxy, hylow, hyhigh,
    Nat.div_add_mod]

theorem multiplierOf_toNat (b3 : Byte) : (multiplierOf b3).toNat = 3 + 2 * (b3.toNat / 2 ^ 2 % 4) := by
  unfold multiplierOf
  simp only [BitVec.ofNat_eq_ofNat, BitVec.toNat_add, BitVec.toNat_mul, BitVec.toNat_ofNat,
    BitVec.toNat_setWidth, BitVec.extractLsb'_toNat, Nat.shiftRight_eq_div_pow]
  omega

theorem odd_multiplierOf (b3 : Byte) : Odd (multiplierOf b3).toNat := by
  rw [multiplierOf_toNat]
  exact ⟨1 + b3.toNat / 2 ^ 2 % 4, by ring⟩

theorem mixBuffer_eq_comp (b3 : Byte) : mixBuffer b3 = (fun x => multiplierOf b3 * x) ∘
    (fun x => rotl16 x (rotationOf b3)) ∘ bufferRound^[roundsOf b3] := by
  funext buf
  unfold mixBuffer
  rw [bufferRounds_eq_iterate, BitVec.mul_comm]
  rfl

/-- Settles O45: the rounds, the rotation and the odd multiply are one-to-one, and a one-to-one map of a
finite set is onto. -/
theorem mixingTheBufferIsABijection : Obligations.MixingTheBufferIsABijection := by
  unfold Obligations.MixingTheBufferIsABijection
  intro b3
  rw [mixBuffer_eq_comp, ← Finite.injective_iff_bijective]
  exact (mul_injective_of_odd (odd_multiplierOf b3)).comp
    ((rotl16_injective _).comp (bufferRound_injective.iterate _))

/-! ### The period of the round -/

theorem bufferRound_eq_affine : bufferRound = fun buf => 0x4321 + 0x6329 * buf := rfl

theorem iterate_affine {R : Type} [CommRing R] (c a x : R) (n : Nat) :
    (fun y => c + a * y)^[n] x = x + (c + (a - 1) * x) * ∑ i ∈ Finset.range n, a ^ i := by
  induction n with
  | zero => simp
  | succ n ih =>
    rw [Function.iterate_succ_apply', ih, geom_sum_succ]
    ring

/-- `a - 1` times the sum is `a ^ n - 1`, and as 4 divides `a - 1`, that has as many factors 2 as
`(a - 1) * n`. -/
theorem two_pow_dvd_geom_sum_iff {a : ℕ} (ha : 1 < a) (hmod : a % 4 = 1) (j n : Nat) :
    2 ^ j ∣ ∑ i ∈ Finset.range n, a ^ i ↔ 2 ^ j ∣ n := by
  have hfour : (4 : ℤ) ∣ a - 1 := by omega
  have hlift := Int.two_pow_sub_pow' n hfour (by omega)
  have hfinite : emultiplicity 2 (a - 1 : ℤ) ≠ ⊤ :=
    finiteMultiplicity_iff_emultiplicity_ne_top.mp
      (Int.finiteMultiplicity_iff.mpr ⟨by decide, by omega⟩)
  rw [one_pow, ← mul_geom_sum, emultiplicity_mul Int.prime_two] at hlift
  have hdvd := emultiplicity_eq_emultiplicity_iff.mp
    (ENat.add_right_injective_of_ne_top hfinite hlift) j
  exact_mod_cast hdvd

theorem natCast_bitVec_eq_zero_iff {w : Nat} (n : Nat) : (n : BitVec w) = 0 ↔ 2 ^ w ∣ n := by
  rw [BitVec.natCast_eq_ofNat, ← BitVec.toNat_inj, BitVec.toNat_ofNat, BitVec.ofNat_eq_ofNat,
    BitVec.toNat_ofNat, Nat.zero_mod, Nat.dvd_iff_mod_eq_zero]

/-- What one round adds to the buffer. -/
theorem odd_increment (x : Half) : Odd (0x4321 + (0x6329 - 1) * x).toNat := by
  have hfactor : (0x6329 : Half) - 1 = 0x6328 := rfl
  rw [hfactor, Nat.odd_iff]
  simp only [BitVec.ofNat_eq_ofNat, BitVec.toNat_add, BitVec.toNat_mul, BitVec.toNat_ofNat]
  omega

/-- `n` rounds add an odd number times the sum of the first `n` powers of the factor, and
that sum has as many factors 2 as `n`, because the factor is 1 modulo 4. -/
theorem iterate_bufferRound_eq_self_iff (n : Nat) (x : Half) :
    bufferRound^[n] x = x ↔ 2 ^ 16 ∣ n := by
  have hodd := odd_increment x
  have hsum : ∑ i ∈ Finset.range n, (0x6329 : Half) ^ i =
      ((∑ i ∈ Finset.range n, 0x6329 ^ i : ℕ) : Half) := by
    push_cast
    rfl
  calc bufferRound^[n] x = x
      ↔ (0x4321 + (0x6329 - 1) * x) * ∑ i ∈ Finset.range n, (0x6329 : Half) ^ i =
          (0x4321 + (0x6329 - 1) * x) * 0 := by
        rw [bufferRound_eq_affine, iterate_affine, add_eq_left, mul_zero]
    _ ↔ ∑ i ∈ Finset.range n, (0x6329 : Half) ^ i = 0 := (mul_injective_of_odd hodd).eq_iff
    _ ↔ 2 ^ 16 ∣ n := by
        rw [hsum, natCast_bitVec_eq_zero_iff, two_pow_dvd_geom_sum_iff (by decide) (by decide)]

/-- Settles O46: no positive number below 65536 is a multiple of it. -/
theorem bufferRoundHasFullPeriod : Obligations.BufferRoundHasFullPeriod := by
  unfold Obligations.BufferRoundHasFullPeriod
  refine fun x => ⟨(iterate_bufferRound_eq_self_iff 65536 x).mpr (dvd_refl 65536), fun k hpos hlt h => ?_⟩
  exact Nat.not_dvd_of_pos_of_lt hpos hlt ((iterate_bufferRound_eq_self_iff k x).mp h)

end Sys2Proof.Machine
end

section
/-! SUPPORT. `Halfword()` over natural numbers (42_halfword.md R147): the reference cut into the trigger
check, the three draws and the mixing, and for each that it computes the numbers of the machine's. -/

namespace Sys2Proof.Reference

open Sys2Proof.Machine

/-! ### The codec and the trigger check -/

theorem zext64_shiftLeft_toNat {n lsb : Nat} (h : lsb + n ≤ 64) (x : BitVec n) :
    (zext64 x <<< lsb).toNat = x.toNat * 2 ^ lsb := by
  have hlt : x.toNat * 2 ^ lsb < 2 ^ 64 := calc
    x.toNat * 2 ^ lsb < 2 ^ n * 2 ^ lsb := Nat.mul_lt_mul_of_pos_right x.isLt (Nat.two_pow_pos lsb)
    _ = 2 ^ (n + lsb) := (pow_add 2 n lsb).symm
    _ ≤ 2 ^ 64 := Nat.pow_le_pow_right (by decide) (by omega)
  rw [BitVec.toNat_shiftLeft, zext64_toNat (by omega), Nat.shiftLeft_eq, Nat.mod_eq_of_lt hlt]

theorem packed_fieldsOf (l : Layout) (g : GenState) : packed l (fieldsOf g) = (g.pack l).toNat := by
  obtain ⟨hshift, hcarry, hcurrent, hprev, hlinear⟩ := l.fits
  unfold GenState.pack packed
  simp only [BitVec.toNat_or, zext64_shiftLeft_toNat hshift, zext64_shiftLeft_toNat hcarry,
    zext64_shiftLeft_toNat hcurrent, zext64_shiftLeft_toNat hprev, zext64_shiftLeft_toNat hlinear,
    fieldsOf_shift, fieldsOf_carry, fieldsOf_current, fieldsOf_prev, fieldsOf_linear]

theorem unpacked_toNat (l : Layout) (v : Word64) :
    unpacked l v.toNat = fieldsOf (GenState.unpack l v) := by
  unfold GenState.unpack unpacked
  simp only [fieldsOf, BitVec.extractLsb'_toNat, Nat.shiftRight_eq_div_pow]

/-- Step 1 (R141). -/
def triggerChecked (p : Params) (f : Fields) : Fields :=
  match nextEntry (p.triggers.values.map BitVec.toNat) (packed p.layout f) with
  | some v => unpacked p.layout v
  | none => f

theorem triggerChecked_fieldsOf (p : Params) (g : GenState) :
    triggerChecked p (fieldsOf g) = fieldsOf (checkTrigger p g) := by
  unfold triggerChecked
  rw [packed_fieldsOf, nextEntry_map BitVec.toNat_injective]
  cases h : successorIn p.triggers.values (g.pack p.layout) with
  | none => rw [checkTrigger_of_none h]; rfl
  | some v => rw [checkTrigger_of_some h, ← unpacked_toNat]; rfl

/-! ### The mixing -/

/-- Steps 4 to 6 under the control byte `b3` (R143 to R146). -/
def mixed (b3 buf : Nat) : Nat :=
  rotated (rounds (b3 % 4 + 2) buf) (b3 / 2 ^ 4) * (3 + 2 * (b3 / 2 ^ 2 % 4)) % 2 ^ 16

theorem rounds_toNat (n : Nat) (buf : Half) : rounds n buf.toNat = (bufferRounds n buf).toNat := by
  induction n generalizing buf with
  | zero => rfl
  | succ n ih =>
    have hround : (0x4321 + 0x6329 * buf.toNat) % 2 ^ 16 = (bufferRound buf).toNat := by
      simp [bufferRound]
    rw [rounds, bufferRounds, hround, ih]

theorem rotated_toNat (x : Half) (r : BitVec 4) : rotated x.toNat r.toNat = (rotl16 x r).toNat := by
  rw [rotl16_toNat, rotated, two_pow_sixteen_eq r, Nat.mul_mod_mul_right]

theorem rotationOf_toNat (b3 : Byte) : (Machine.rotationOf b3).toNat = b3.toNat / 2 ^ 4 := by
  have hb := b3.isLt
  unfold Machine.rotationOf
  rw [BitVec.extractLsb'_toNat, Nat.shiftRight_eq_div_pow]
  omega

theorem roundsOf_eq (b3 : Byte) : roundsOf b3 = b3.toNat % 4 + 2 := by
  unfold roundsOf
  rw [BitVec.extractLsb'_toNat, Nat.shiftRight_zero]

theorem mixed_toNat (b3 : Byte) (buf : Half) : mixed b3.toNat buf.toNat = (mixBuffer b3 buf).toNat := by
  unfold mixed mixBuffer
  rw [BitVec.toNat_mul, multiplierOf_toNat, ← rotated_toNat, ← rounds_toNat, rotationOf_toNat, roundsOf_eq]

/-! ### The halfword -/

theorem halfword_eq (p : Params) (f : Fields) : halfword p f =
    let d1 := combine p (triggerChecked p f)
    let d2 := combine p d1.2
    let d3 := combine p d2.2
    (mixed d3.1 (d1.1 * 2 ^ 8 + d2.1), d3.2) := rfl

/-- The reference computes what the machine's `Halfword()` does. -/
theorem halfword_fieldsOf (p : Params) (g : GenState) :
    halfword p (fieldsOf g) = ((Machine.halfword p g).1.toNat, fieldsOf (Machine.halfword p g).2) := by
  rw [halfword_eq]
  simp only [triggerChecked_fieldsOf, combine_fieldsOf, ← toNat_append_eq_add, mixed_toNat]
  rfl

end Sys2Proof.Reference

namespace Sys2Proof.Machine

theorem exec_halfword (s : State) : exec .halfword s =
    .next ((s.withGen (halfword s.params s.gen).2).complete (zext64 (halfword s.params s.gen).1)) := rfl

/-- Settles O43, step by step of the reference. -/
theorem halfwordMatchesItsRule : Obligations.HalfwordMatchesItsRule := by
  unfold Obligations.HalfwordMatchesItsRule
  intro s
  refine ⟨(halfword s.params s.gen).2, zext64 (halfword s.params s.gen).1, exec_halfword s, ?_⟩
  rw [Reference.halfword_fieldsOf, zext64_toNat (by decide)]

end Sys2Proof.Machine
end

section
/-! SUPPORT. The Seed Expander (43_seed_expander.md): the accumulators hold the numbers the reference
gathers, because no draw shifts a bit out of the 64; and the 64-bit steps are one-to-one. -/

namespace Sys2Proof.Machine

/-! ### The accumulators -/

/-- `n` draws shifted into an accumulator, the first one highest: the loop that R160 runs with
`Combine()` and R161 with `Halfword()`. -/
def drawInto {w : Nat} (draw : GenState → BitVec w × GenState) : Nat → Word64 × GenState → Word64 × GenState
  | 0, d => d
  | n + 1, d => drawInto draw n ((d.1 <<< w) ||| zext64 (draw d.2).1, (draw d.2).2)

theorem drawBytes_eq_drawInto (p : Params) (n : Nat) (d : Word64 × GenState) :
    drawBytes p n d = drawInto (combine p) n d := by
  induction n generalizing d with
  | zero => rfl
  | succ n ih => exact ih _

theorem drawHalfwords_eq_drawInto (p : Params) (n : Nat) (d : Word64 × GenState) :
    drawHalfwords p n d = drawInto (halfword p) n d := by
  induction n generalizing d with
  | zero => rfl
  | succ n ih => exact ih _

theorem toNat_shiftLeft_or_zext64 {k w : Nat} (hk : k + w ≤ 64) {acc : Word64} (hacc : acc.toNat < 2 ^ k)
    (x : BitVec w) : (acc <<< w ||| zext64 x).toNat = acc.toNat * 2 ^ w + x.toNat := by
  have hfits : acc.toNat * 2 ^ w < 2 ^ 64 := calc
    acc.toNat * 2 ^ w < 2 ^ k * 2 ^ w := Nat.mul_lt_mul_of_pos_right hacc (Nat.two_pow_pos w)
    _ = 2 ^ (k + w) := (pow_add 2 k w).symm
    _ ≤ 2 ^ 64 := Nat.pow_le_pow_right (by decide) hk
  rw [BitVec.toNat_or, BitVec.toNat_shiftLeft, zext64_toNat (by omega), Nat.shiftLeft_eq,
    Nat.mod_eq_of_lt hfits, ← Nat.shiftLeft_eq, Nat.shiftLeft_add_eq_or_of_lt x.isLt]

theorem mul_two_pow_add_toNat_lt {k w acc : Nat} (hacc : acc < 2 ^ k) (x : BitVec w) :
    acc * 2 ^ w + x.toNat < 2 ^ (k + w) := calc
  acc * 2 ^ w + x.toNat < (acc + 1) * 2 ^ w := by
    rw [Nat.succ_mul]
    exact Nat.add_lt_add_left x.isLt _
  _ ≤ 2 ^ k * 2 ^ w := Nat.mul_le_mul_right _ hacc
  _ = 2 ^ (k + w) := (pow_add 2 k w).symm

end Sys2Proof.Machine

namespace Sys2Proof.Reference

open Sys2Proof.Machine

/-- Where the reference draws what the machine draws, it gathers what the machine gathers: an
accumulator that fits in `k` bits fits in `k + w` after one draw, so all stays exact up to 64 bits. -/
theorem gather_fieldsOf {w : Nat} {draw : GenState → BitVec w × GenState} {refDraw : Fields → Nat × Fields}
    (hdraw : ∀ g, refDraw (fieldsOf g) = ((draw g).1.toNat, fieldsOf (draw g).2))
    {n k : Nat} (hk : k + w * n ≤ 64) {acc : Word64} (hacc : acc.toNat < 2 ^ k) (g : GenState) :
    gather refDraw w n (acc.toNat, fieldsOf g) =
      ((drawInto draw n (acc, g)).1.toNat, fieldsOf (drawInto draw n (acc, g)).2) := by
  induction n generalizing k acc g with
  | zero => rfl
  | succ n ih =>
    rw [Nat.mul_succ] at hk
    have hnext := toNat_shiftLeft_or_zext64 (by omega) hacc (draw g).1
    have hlt := mul_two_pow_add_toNat_lt hacc (draw g).1
    rw [← hnext] at hlt
    rw [gather, hdraw, drawInto, ← hnext]
    exact ih (by omega) hlt (draw g).2

theorem gather_zero_fieldsOf {w n : Nat} {draw : GenState → BitVec w × GenState}
    {refDraw : Fields → Nat × Fields}
    (hdraw : ∀ g, refDraw (fieldsOf g) = ((draw g).1.toNat, fieldsOf (draw g).2)) (hn : w * n ≤ 64)
    (g : GenState) : gather refDraw w n (0, fieldsOf g) =
      ((drawInto draw n (0, g)).1.toNat, fieldsOf (drawInto draw n (0, g)).2) :=
  gather_fieldsOf hdraw (k := 0) (by omega) (acc := 0) (by decide) g

theorem expandFirst_toNat (x : Word64) :
    (expandFirst x).toNat = (0x0123456789ABCDEF + 0x5851F42D4C957F2D * x.toNat) % 2 ^ 64 := by
  simp [expandFirst]

theorem expandSecond_toNat (x : Word64) :
    (expandSecond x).toNat = (0x0FEDCBA987654321 + 0x5851F42D4C957F2D * x.toNat) % 2 ^ 64 := by
  simp [expandSecond]

/-- The reference computes the value of the machine's `Expand()`: the bytes are gathered from the
state, the halfwords from the state the bytes leave. -/
theorem expand_fieldsOf (p : Params) (g : GenState) :
    expand p (fieldsOf g) = (expandValue p g).toNat := by
  have hbytes := gather_zero_fieldsOf (combine_fieldsOf p) (n := 8) (by decide)
  have hhalves := gather_zero_fieldsOf (halfword_fieldsOf p) (n := 4) (by decide)
  unfold expand expandValue
  simp only [hbytes, hhalves, drawBytes_eq_drawInto, drawHalfwords_eq_drawInto, BitVec.toNat_xor,
    expandFirst_toNat, expandSecond_toNat]

end Sys2Proof.Reference

namespace Sys2Proof.Machine

theorem exec_expand (s : State) : exec .expand s =
    .next ((s.withGen (expandState s.params s.gen)).complete (expandValue s.params s.gen)) := rfl

/-- Settles O47, the value by the reference's two gathers and two steps. -/
theorem expandMatchesItsRule : Obligations.ExpandMatchesItsRule := by
  unfold Obligations.ExpandMatchesItsRule
  exact fun s => ⟨expandValue s.params s.gen, exec_expand s, (Reference.expand_fieldsOf _ _).symm⟩

/-! ### The 64-bit steps -/

theorem affine_bijective_of_odd {w : Nat} (c : BitVec w) {a : BitVec w} (ha : Odd a.toNat) :
    Function.Bijective (fun x => c + a * x) :=
  Finite.injective_iff_bijective.mp ((add_right_injective c).comp (mul_injective_of_odd ha))

/-- Settles O48: the factor both steps share is odd. -/
theorem expanderStepsAreBijections : Obligations.ExpanderStepsAreBijections := by
  unfold Obligations.ExpanderStepsAreBijections
  have hodd : Odd (0x5851F42D4C957F2D : Word64).toNat := by decide
  exact ⟨affine_bijective_of_odd 0x0123456789ABCDEF hodd, affine_bijective_of_odd 0x0FEDCBA987654321 hodd⟩

end Sys2Proof.Machine
end

section
/-! SUPPORT. The rejection threshold of a range as arithmetic (44_range_limiter.md R172, R174, R175):
when it is zero, what the reduction is then, and that the accepted halfwords fall evenly. -/

namespace Sys2Proof.Machine

/-! ### Powers of two -/

theorem half_toNat_pos {range : Half} (hrange : range ≠ 0) : 1 ≤ range.toNat :=
  Nat.one_le_iff_ne_zero.mpr fun h => hrange (BitVec.eq_of_toNat_eq h)

theorem half_toNat_sub_one {range : Half} (hrange : range ≠ 0) :
    (range - 1).toNat = range.toNat - 1 :=
  BitVec.toNat_sub_of_le (half_toNat_pos hrange)

/-- The 16-bit test of R172, for a range that is not 0. -/
theorem and_sub_one_eq_zero_iff_isPowerOfTwo {range : Half} (hrange : range ≠ 0) :
    range &&& (range - 1) = 0 ↔ range.toNat.isPowerOfTwo := by
  rw [← Nat.and_sub_one_eq_zero_iff_isPowerOfTwo (Nat.one_le_iff_ne_zero.mp (half_toNat_pos hrange)),
    ← BitVec.toNat_inj, BitVec.toNat_and, half_toNat_sub_one hrange]
  rfl

/-- The powers of two in 16 bits are the divisors of 65536 there. -/
theorem half_toNat_dvd_iff_isPowerOfTwo (range : Half) :
    range.toNat ∣ 65536 ↔ range.toNat.isPowerOfTwo := by
  have hpow : range.toNat ∣ 2 ^ 16 ↔ ∃ k ≤ 16, range.toNat = 2 ^ k := Nat.dvd_prime_pow Nat.prime_two
  refine hpow.trans ⟨fun ⟨k, _, hk⟩ => ⟨k, hk⟩, fun ⟨k, hk⟩ => ⟨k, ?_, hk⟩⟩
  have hlt : 2 ^ k < 2 ^ 16 := hk ▸ range.isLt
  exact ((Nat.pow_lt_pow_iff_right (by decide)).mp hlt).le

/-- R172 and R174: the threshold is 0 exactly where the 16-bit test takes the range for a power of two,
the range 0 included. -/
theorem rejectionThreshold_eq_zero_iff (range : Half) :
    rejectionThreshold range = 0 ↔ range &&& (range - 1) = 0 := by
  by_cases hrange : range = 0
  · rw [hrange]
    decide
  · rw [and_sub_one_eq_zero_iff_isPowerOfTwo hrange, ← half_toNat_dvd_iff_isPowerOfTwo,
      Nat.dvd_iff_mod_eq_zero, ← rejectionThreshold_toNat (half_toNat_pos hrange), ← BitVec.toNat_inj]
    rfl

/-- The mask of range 0 is all ones (R172). -/
theorem and_zero_sub_one (h : Half) : h &&& (0 - 1) = h := BitVec.and_allOnes

/-- R172: the mask is the remainder, for the range 0 too, where both are the halfword itself. -/
theorem umod_eq_and_sub_one {range : Half} (hrange : range &&& (range - 1) = 0) (h : Half) :
    h % range = h &&& (range - 1) := by
  by_cases hzero : range = 0
  · rw [hzero, and_zero_sub_one]
    exact BitVec.umod_zero
  · obtain ⟨k, hk⟩ := (and_sub_one_eq_zero_iff_isPowerOfTwo hzero).mp hrange
    apply BitVec.eq_of_toNat_eq
    rw [BitVec.toNat_umod, BitVec.toNat_and, half_toNat_sub_one hzero, hk,
      Nat.and_two_pow_sub_one_eq_mod]

/-! ### The threshold against its range -/

theorem rejectionThreshold_lt {range : Half} (hrange : range ≠ 0) : rejectionThreshold range < range := by
  rw [BitVec.lt_def, rejectionThreshold_toNat (half_toNat_pos hrange)]
  exact Nat.mod_lt _ (half_toNat_pos hrange)

/-- R174: a halfword can lie below the threshold only for a range from 3 that is no power of two. -/
theorem range_of_lt_rejectionThreshold {range c : Half} (hc : c < rejectionThreshold range) :
    3 ≤ range.toNat ∧ range &&& (range - 1) ≠ 0 := by
  have hne : rejectionThreshold range ≠ 0 := fun hzero => by
    rw [hzero] at hc
    exact BitVec.not_lt_zero hc
  have hpow : range &&& (range - 1) ≠ 0 := (rejectionThreshold_eq_zero_iff range).not.mp hne
  refine ⟨?_, hpow⟩
  by_contra hsmall
  have hcases : range = 0 ∨ range = 1 ∨ range = 2 := by bv_omega
  rcases hcases with rfl | rfl | rfl <;> exact hpow rfl

/-! ### Uniformity -/

/-- From `N mod r` up to `N`, each residue modulo `r` occurs `N / r` times: these are `N / r` whole
periods. -/
theorem card_filter_range_mod_eq (N : Nat) {r v : Nat} (hv : v < r) :
    ((Finset.range N).filter (fun h => N % r ≤ h ∧ h % r = v)).card = N / r := by
  have hr : 0 < r := Nat.zero_lt_of_lt hv
  have hset : (Finset.range N).filter (fun h => N % r ≤ h ∧ h % r = v) =
      (Finset.Ico (N % r) N).filter (fun h => h ≡ v [MOD r]) := by
    ext h
    simp only [Finset.mem_filter, Finset.mem_range, Finset.mem_Ico, Nat.ModEq, Nat.mod_eq_of_lt hv]
    tauto
  have hperiods : ((N : ℚ) - v) / r = ((N % r : ℕ) - v) / r + (N / r : ℕ) := by
    have hdivmod : (N : ℚ) = r * (N / r : ℕ) + (N % r : ℕ) := by exact_mod_cast (Nat.div_add_mod N r).symm
    have hne : (r : ℚ) ≠ 0 := by exact_mod_cast hr.ne'
    field_simp
    linear_combination hdivmod
  have hcard := Nat.Ico_filter_modEq_card (N % r) N hr v
  rw [hperiods, Int.ceil_add_natCast, add_sub_cancel_left, max_eq_left (Int.natCast_nonneg _)] at hcard
  rw [hset]
  exact_mod_cast hcard

theorem card_filter_range_le (N t : Nat) : ((Finset.range N).filter (fun h => t ≤ h)).card = N - t := by
  have hset : (Finset.range N).filter (fun h => t ≤ h) = Finset.Ico t N := by
    ext h
    simp only [Finset.mem_filter, Finset.mem_range, Finset.mem_Ico, and_comm]
  rw [hset, Nat.card_Ico]

/-- Settles O59: the threshold is `65536 mod range`, so the accepted halfwords are whole periods. -/
theorem acceptedHalfwordsAreUniform : Obligations.AcceptedHalfwordsAreUniform := by
  unfold Obligations.AcceptedHalfwordsAreUniform
  intro range hthree hpow
  have hzero : range ≠ 0 := by
    rintro rfl
    exact hpow rfl
  have ht : rejectionThreshold range ≠ 0 := (rejectionThreshold_eq_zero_iff range).not.mpr hpow
  refine ⟨rejectionThreshold_lt hzero, half_toNat_pos ht, card_filter_range_le _ _, ?_, ?_⟩
  · rw [rejectionThreshold_toNat (half_toNat_pos hzero)]
    exact Nat.dvd_sub_mod 65536
  · intro r hr
    rw [rejectionThreshold_toNat (half_toNat_pos hzero)]
    exact card_filter_range_mod_eq 65536 hr

end Sys2Proof.Machine
end

section
/-! SUPPORT. The Range Limiter (44_range_limiter.md R170 to R176): its cases as one test of the drawn
halfword against the threshold, and what follows for the result and for the rejection loop. -/

namespace Sys2Proof.Machine

/-- What the engine is doing replaced, and nothing else: how a SAMPLE that goes on leaves the state. -/
def State.withActivity (s : State) (a : Activity) : State := { s with activity := a }

@[simp] theorem State.withActivity_gen (s : State) (a : Activity) : (s.withActivity a).gen = s.gen := rfl
@[simp] theorem State.withActivity_activity (s : State) (a : Activity) : (s.withActivity a).activity = a := rfl
@[simp] theorem State.withActivity_params (s : State) (a : Activity) : (s.withActivity a).params = s.params := rfl
@[simp] theorem State.withActivity_inputs (s : State) (a : Activity) : (s.withActivity a).inputs = s.inputs := rfl

@[simp] theorem State.withGen_withGen (s : State) (g g' : GenState) :
    (s.withGen g).withGen g' = s.withGen g' := rfl
@[simp] theorem State.withActivity_withGen (s : State) (a : Activity) (g : GenState) :
    (s.withActivity a).withGen g = (s.withGen g).withActivity a := rfl

/-! ### The limiter as one test -/

theorem testCandidate_of_lt (s : State) {range t c : Half} (hc : c < t) :
    s.testCandidate range t c = s.withActivity (.redrawing range t c) := if_pos hc

theorem testCandidate_of_not_lt (s : State) {range t c : Half} (hc : ¬ c < t) :
    s.testCandidate range t c = s.complete (zext64 (c % range)) := if_neg hc

/-- R172: nothing is rejected where the range passes the test for a power of two. -/
theorem testCandidate_of_and_sub_one_eq_zero (s : State) {range : Half}
    (hrange : range &&& (range - 1) = 0) (h : Half) :
    s.testCandidate range (rejectionThreshold range) h = s.complete (zext64 (h &&& (range - 1))) := by
  rw [(rejectionThreshold_eq_zero_iff range).mpr hrange, ← umod_eq_and_sub_one hrange]
  exact testCandidate_of_not_lt s BitVec.not_lt_zero

/-- R175: mask, raw halfword and first-draw shortcut are all what the test against the threshold does. -/
theorem limitDrawn_eq_testCandidate (s : State) (range h : Half) :
    s.limitDrawn range h = s.testCandidate range (rejectionThreshold range) h := by
  unfold State.limitDrawn
  split_ifs with hzero hpow hlt
  · subst hzero
    rw [testCandidate_of_and_sub_one_eq_zero s (range := 0) rfl, and_zero_sub_one]
  · exact (testCandidate_of_and_sub_one_eq_zero s hpow h).symm
  · rfl
  · have hthreshold := BitVec.lt_def.mp (rejectionThreshold_lt hzero)
    rw [BitVec.lt_def] at hlt
    exact (testCandidate_of_not_lt s (by rw [BitVec.lt_def]; omega)).symm

theorem limit_one (s : State) : s.limit 1 = s.complete 0 := if_pos rfl

theorem limit_of_ne_one (s : State) {range : Half} (hrange : range ≠ 1) :
    s.limit range = (s.withGen (halfword s.params s.gen).2).testCandidate range
      (rejectionThreshold range) (halfword s.params s.gen).1 := by
  unfold State.limit
  rw [if_neg hrange, limitDrawn_eq_testCandidate]

theorem ne_one_of_two_le {range : Half} (hrange : 2 ≤ range.toNat) : range ≠ 1 := by
  rintro rfl
  exact absurd hrange (by decide)

theorem sampleFrom_zero (s : State) (range : Half) : s.sampleFrom range 0 = s.limit range := if_pos rfl

theorem sampleFrom_of_ne_zero (s : State) (range : Half) {n : Word32} (hn : n ≠ 0) :
    s.sampleFrom range n =
      (s.withGen (expandState s.params s.gen)).withActivity (.reseeding range (n - 1)) := if_neg hn

theorem exec_sample (range : Half) (reseed : Word32) (s : State) :
    exec (.sample range reseed) s = .next (s.sampleFrom range reseed) := rfl

/-! ### One draw -/

/-- Settles O49. -/
theorem sampleOneConsumesNothing : Obligations.SampleOneConsumesNothing := by
  unfold Obligations.SampleOneConsumesNothing
  intro s
  rw [exec_sample, sampleFrom_zero, limit_one]
  rfl

/-- Settles O50. -/
theorem sampleZeroIsRaw : Obligations.SampleZeroIsRaw := by
  unfold Obligations.SampleZeroIsRaw
  intro s
  rw [exec_sample, sampleFrom_of_noRejection s (range := 0) rfl, if_neg (by decide),
    and_zero_sub_one]
  rfl

/-- The sixteen-bit powers of two pass the test of R172, and the mask is the number below. -/
theorem half_two_pow_mask : ∀ k < 16, 1 ≤ k →
    BitVec.ofNat 16 (2 ^ k) &&& (BitVec.ofNat 16 (2 ^ k) - 1) = 0 ∧ BitVec.ofNat 16 (2 ^ k) ≠ 1 ∧
      BitVec.ofNat 16 (2 ^ k) - 1 = BitVec.ofNat 16 (2 ^ k - 1) := by
  decide

/-- Settles O51. -/
theorem samplePowerOfTwoMasks : Obligations.SamplePowerOfTwoMasks := by
  unfold Obligations.SamplePowerOfTwoMasks
  refine ⟨⟨rfl, and_zero_sub_one⟩, fun s k hk hk15 => ?_⟩
  obtain ⟨hpow, hone, hmask⟩ := half_two_pow_mask k (Nat.lt_succ_of_le hk15) hk
  refine ⟨hpow, ?_⟩
  rw [exec_sample, sampleFrom_of_noRejection s hpow, if_neg hone, hmask]
  rfl

/-- A candidate not below `65536 mod range` is reduced and returned. -/
theorem testCandidate_of_mod_le (s : State) {range c : Half} (hrange : 2 ≤ range.toNat)
    (hc : 65536 % range.toNat ≤ c.toNat) :
    s.testCandidate range (rejectionThreshold range) c =
      s.complete (BitVec.ofNat 64 (c.toNat % range.toNat)) := by
  have hthreshold := rejectionThreshold_toNat (range := range) (by omega)
  rw [testCandidate_of_not_lt s (by rw [BitVec.lt_def]; omega)]
  congr 1
  rw [zext64, ← BitVec.ofNat_toNat, BitVec.toNat_umod]

/-- A candidate below `65536 mod range` is held. -/
theorem testCandidate_of_lt_mod (s : State) {range c : Half} (hrange : 2 ≤ range.toNat)
    (hc : c.toNat < 65536 % range.toNat) :
    s.testCandidate range (rejectionThreshold range) c =
      s.withActivity (.redrawing range (BitVec.ofNat 16 (65536 % range.toNat)) c) := by
  have hthreshold := rejectionThreshold_toNat (range := range) (by omega)
  exact testCandidate_of_lt s (by rw [BitVec.lt_def]; omega)

/-- Settles O52. -/
theorem sampleFirstDraw : Obligations.SampleFirstDraw := by
  unfold Obligations.SampleFirstDraw
  intro s range hrange
  rw [exec_sample, sampleFrom_zero, limit_of_ne_one s (ne_one_of_two_le hrange)]
  refine ⟨fun hc => ?_, fun hc => ?_⟩
  · rw [testCandidate_of_mod_le _ hrange hc]
    rfl
  · rw [testCandidate_of_lt_mod _ hrange hc]
    rfl

/-! ### The engine's own work on a SAMPLE -/

/-- Without a reset a busy engine works on what it is doing; a pause is used up. -/
theorem step_of_noReset {s : State} (hnoReset : s.NoReset) (hbusy : s.activity ≠ .idle) :
    step s = advance (s.withInputs (afterPause s.inputs)) := by
  obtain ⟨t, hstep, ⟨rest, hin, -⟩ | ⟨c, rest, -, hidle, -⟩ | ⟨-, hadvance⟩⟩ := step_cases s
  · exact absurd (by simp [hin]) hnoReset
  · exact absurd hidle hbusy
  · rw [hstep, hadvance]

theorem advance_of_accepted_sample {s : State} {range : Half} {reseed : Word32}
    (h : s.activity = .accepted (encode (.sample range reseed))) :
    advance s = .next (s.sampleFrom range reseed) := by
  rw [advance_of_accepted h, runAccepted_encode, exec_sample]

theorem advance_of_reseeding {s : State} {range : Half} {n : Word32}
    (h : s.activity = .reseeding range n) : advance s = .next (s.sampleFrom range n) := by
  unfold advance
  rw [h]

theorem advance_of_redrawing {s : State} {range t c : Half}
    (h : s.activity = .redrawing range t c) : advance s = .next (s.redraw range t c) := by
  unfold advance
  rw [h]

/-! ### The result of a completed SAMPLE -/

/-- Where the engine is idle, `RESULT` is one that a SAMPLE with this range may leave (R176). -/
def State.InRangeIfIdle (range : Half) (s : State) : Prop :=
  s.busy = false → s.result.toNat < if range = 0 then 65536 else range.toNat

theorem complete_inRangeIfIdle (s : State) (range c : Half) :
    (s.complete (zext64 (c % range))).InRangeIfIdle range := by
  intro _
  rw [State.complete_result, zext64_toNat (by decide)]
  split
  · exact (c % range).isLt
  · next hzero =>
    rw [BitVec.toNat_umod]
    exact Nat.mod_lt _ (half_toNat_pos hzero)

theorem testCandidate_inRangeIfIdle (s : State) (range t c : Half) :
    (s.testCandidate range t c).InRangeIfIdle range := by
  rw [State.testCandidate_eq]
  split
  · intro hidle
    simp at hidle
  · exact complete_inRangeIfIdle s range c

theorem redraw_inRangeIfIdle (s : State) (range t c : Half) : (s.redraw range t c).InRangeIfIdle range := by
  unfold State.redraw
  split
  · exact testCandidate_inRangeIfIdle _ range t _
  · exact complete_inRangeIfIdle s range c

theorem limit_inRangeIfIdle (s : State) (range : Half) : (s.limit range).InRangeIfIdle range := by
  by_cases hone : range = 1
  · subst hone
    rw [limit_one]
    exact fun _ => Nat.one_pos
  · rw [limit_of_ne_one s hone]
    exact testCandidate_inRangeIfIdle _ range _ _

theorem sampleFrom_inRangeIfIdle (s : State) (range : Half) (n : Word32) :
    (s.sampleFrom range n).InRangeIfIdle range := by
  by_cases hn : n = 0
  · subst hn
    rw [sampleFrom_zero]
    exact limit_inRangeIfIdle s range
  · rw [sampleFrom_of_ne_zero s range hn]
    intro hidle
    simp at hidle

/-- A SAMPLE with this range is running: accepted, reseeding, or in its rejection loop. -/
def State.Sampling (range : Half) (s : State) : Prop :=
  (∃ reseed, s.activity = .accepted (encode (.sample range reseed))) ∨
    (∃ n, s.activity = .reseeding range n) ∨ (∃ th c, s.activity = .redrawing range th c)

theorem State.Sampling.activity_ne_idle {s : State} {range : Half} (hs : s.Sampling range) :
    s.activity ≠ .idle := by
  obtain ⟨_, h⟩ | ⟨_, h⟩ | ⟨_, _, h⟩ := hs <;> simp [h]

theorem State.Sampling.advance_inRangeIfIdle {s : State} {range : Half} (hs : s.Sampling range) :
    ∃ t, advance s = .next t ∧ t.InRangeIfIdle range := by
  obtain ⟨reseed, h⟩ | ⟨n, h⟩ | ⟨th, c, h⟩ := hs
  · exact ⟨_, advance_of_accepted_sample h, sampleFrom_inRangeIfIdle s range reseed⟩
  · exact ⟨_, advance_of_reseeding h, sampleFrom_inRangeIfIdle s range n⟩
  · exact ⟨_, advance_of_redrawing h, redraw_inRangeIfIdle s range th c⟩

/-- Settles O58: from each of the three activities every completion is with a remainder, with a raw
halfword or, for the range 1, with 0. -/
theorem sampleResultIsInRange : Obligations.SampleResultIsInRange := by
  unfold Obligations.SampleResultIsInRange
  intro s t range hnoReset (hs : s.Sampling range) hstep
  obtain ⟨u, hadvance, hu⟩ :=
    State.Sampling.advance_inRangeIfIdle (s := s.withInputs (afterPause s.inputs)) hs
  rw [step_of_noReset hnoReset hs.activity_ne_idle, hadvance] at hstep
  obtain rfl := Host.Outcome.next.inj hstep
  exact hu

/-! ### The rejection loop's invariant -/

theorem loopConsistent_of_not_redrawing {s : State}
    (h : ∀ range t c, s.activity ≠ .redrawing range t c) : s.LoopConsistent :=
  fun range t c hactivity => absurd hactivity (h range t c)

theorem complete_loopConsistent (s : State) (r : Word64) : (s.complete r).LoopConsistent :=
  loopConsistent_of_not_redrawing (by simp)

theorem testCandidate_loopConsistent (s : State) (range c : Half) :
    (s.testCandidate range (rejectionThreshold range) c).LoopConsistent := by
  by_cases hc : c < rejectionThreshold range
  · rw [testCandidate_of_lt s hc]
    rintro _ _ _ ⟨⟩
    obtain ⟨hthree, hpow⟩ := range_of_lt_rejectionThreshold hc
    exact ⟨hthree, hpow, rejectionThreshold_toNat (by omega), hc⟩
  · rw [testCandidate_of_not_lt s hc]
    exact complete_loopConsistent s _

theorem sampleFrom_loopConsistent (s : State) (range : Half) (n : Word32) :
    (s.sampleFrom range n).LoopConsistent := by
  by_cases hn : n = 0
  · subst hn
    rw [sampleFrom_zero]
    by_cases hone : range = 1
    · subst hone
      rw [limit_one]
      exact complete_loopConsistent s 0
    · rw [limit_of_ne_one s hone]
      exact testCandidate_loopConsistent _ range _
  · rw [sampleFrom_of_ne_zero s range hn]
    exact loopConsistent_of_not_redrawing (by simp)

theorem redraw_loopConsistent (s : State) (range c : Half) :
    (s.redraw range (rejectionThreshold range) c).LoopConsistent := by
  unfold State.redraw
  split
  · exact testCandidate_loopConsistent _ range _
  · exact complete_loopConsistent s _

/-- The threshold a consistent loop holds is the one the limiter computes. -/
theorem State.LoopConsistent.threshold_eq {s : State} (hs : s.LoopConsistent) {range t c : Half}
    (h : s.activity = .redrawing range t c) : t = rejectionThreshold range := by
  obtain ⟨hthree, -, ht, -⟩ := hs range t c h
  exact BitVec.eq_of_toNat_eq (ht.trans (rejectionThreshold_toNat (by omega)).symm)

/-- SAMPLE is the only command that can enter the loop. -/
theorem exec_loopConsistent {i : Instr} {s t : State} (h : exec i s = .next t) : t.LoopConsistent := by
  cases i with
  | sample range reseed =>
    obtain rfl := Host.Outcome.next.inj h
    exact sampleFrom_loopConsistent s range reseed
  | _ =>
    obtain rfl := Host.Outcome.next.inj h
    exact complete_loopConsistent _ _

theorem runAccepted_loopConsistent {c : Command} {s t : State} (h : runAccepted c s = .next t) :
    t.LoopConsistent := by
  unfold runAccepted at h
  split at h
  · exact exec_loopConsistent h
  · obtain rfl := Host.Outcome.next.inj h
    exact loopConsistent_of_not_redrawing (by simp)

theorem advance_loopConsistent {s t : State} (hs : s.LoopConsistent) (h : advance s = .next t) :
    t.LoopConsistent := by
  cases hactivity : s.activity with
  | idle =>
    obtain ⟨-, rfl⟩ | ⟨hbusy, -⟩ := advance_next_cases h
    · exact hs
    · exact absurd hactivity hbusy
  | accepted c => exact runAccepted_loopConsistent ((advance_of_accepted hactivity).symm.trans h)
  | reseeding range n =>
    obtain rfl := Host.Outcome.next.inj ((advance_of_reseeding hactivity).symm.trans h)
    exact sampleFrom_loopConsistent s range n
  | redrawing range threshold c =>
    obtain rfl := Host.Outcome.next.inj ((advance_of_redrawing hactivity).symm.trans h)
    rw [hs.threshold_eq hactivity]
    exact redraw_loopConsistent s range c

/-- Settles O5: a step enters or continues the loop only through the test against the range's
threshold. -/
theorem rejectionLoopStaysConsistent : Obligations.RejectionLoopStaysConsistent := by
  unfold Obligations.RejectionLoopStaysConsistent
  intro s t hs hstep
  obtain ⟨rest, -, rfl⟩ | ⟨c, rest, -, -, rfl⟩ | ⟨-, hadvance⟩ := step_next_cases hstep
  · exact loopConsistent_of_not_redrawing (by simp)
  · exact loopConsistent_of_not_redrawing (by simp)
  · refine advance_loopConsistent ?_ hadvance
    exact hs

end Sys2Proof.Machine
end

section
/-! SUPPORT. SAMPLE as a whole (44_range_limiter.md R173 to R178, R182): the run through its reseeds and
its redraws, where that run ends, a table under which it does not, and reproducibility after a LOAD. -/

namespace Sys2Proof.Machine

/-! ### Reseeding -/

/-- Settles O53: the state R162 gives is the unpacked value of the Seed Expander. -/
theorem sampleReseedsFirst : Obligations.SampleReseedsFirst := by
  unfold Obligations.SampleReseedsFirst
  refine ⟨fun s range reseed hreseed => ⟨expandState s.params s.gen, ?_, ?_⟩,
    fun s range remaining hactivity hnoReset => ?_⟩
  · rw [Reference.expand_fieldsOf, expandState, GenState.pack_unpack]
  · rw [exec_sample, sampleFrom_of_ne_zero s range hreseed]
    rfl
  · rw [step_of_noReset hnoReset (by simp [hactivity]), exec_sample]
    exact advance_of_reseeding hactivity

/-- What the engine was doing before has no effect on the limiter. -/
@[simp] theorem limit_withActivity (s : State) (a : Activity) (range : Half) :
    (s.withActivity a).limit range = s.limit range := by
  by_cases hone : range = 1
  · subst hone
    rfl
  · rw [limit_of_ne_one _ hone, limit_of_ne_one _ hone, State.testCandidate_eq, State.testCandidate_eq]
    rfl

theorem step_of_reseeding {s : State} {range : Half} {n : Word32} (hwaits : s.HostWaits)
    (h : s.activity = .reseeding range n) : step s = .next (s.sampleFrom range n) := by
  rw [step_of_hostWaits hwaits (by simp [h]), advance_of_reseeding h]

/-- R178: a SAMPLE that goes on with `n` reseeds does them all and then the limiter's first draw. -/
theorem runSteps_of_step_sampleFrom {s : State} {range : Half} {n : Word32} (hwaits : s.HostWaits)
    (hstep : step s = .next (s.sampleFrom range n)) :
    runSteps (n.toNat + 1) s = .next ((s.withGen (expandTimes s.params n.toNat s.gen)).limit range) := by
  induction hk : n.toNat generalizing s n with
  | zero =>
    obtain rfl : n = 0 := BitVec.eq_of_toNat_eq hk
    rw [runSteps_succ hstep, runSteps_zero, sampleFrom_zero, expandTimes_zero]
    rfl
  | succ k ih =>
    have hn : n ≠ 0 := by
      rintro rfl
      cases hk
    have hpred : (n - 1).toNat = k := by
      rw [BitVec.toNat_sub_of_le (by bv_omega), hk]
      rfl
    rw [sampleFrom_of_ne_zero s range hn] at hstep
    have hrest := ih (s := (s.withGen (expandState s.params s.gen)).withActivity (.reseeding range (n - 1)))
      hwaits (step_of_reseeding hwaits rfl) hpred
    rw [runSteps_succ hstep, hrest]
    simp

/-- The reseeds of an accepted SAMPLE. -/
theorem runSteps_reseeds {s : State} {range : Half} {reseed : Word32} (hwaits : s.HostWaits)
    (hactivity : s.activity = .accepted (encode (.sample range reseed))) :
    runSteps (reseed.toNat + 1) s =
      .next ((s.withGen (expandTimes s.params reseed.toNat s.gen)).limit range) :=
  runSteps_of_step_sampleFrom hwaits (step_of_accepted_encode hwaits hactivity)

/-- Settles O55: the two ranges at which the limiter's first step is its last. -/
theorem sampleReseedsThenRawOrNothing : Obligations.SampleReseedsThenRawOrNothing := by
  unfold Obligations.SampleReseedsThenRawOrNothing
  intro s reseed hwaits
  refine ⟨fun hactivity => ?_, fun hactivity => ?_⟩
  · rw [runSteps_reseeds hwaits hactivity, limit_one]
    rfl
  · rw [runSteps_reseeds hwaits hactivity, limit_of_ne_one _ (by decide),
      testCandidate_of_and_sub_one_eq_zero _ rfl, and_zero_sub_one, halfwordAt_zero,
      afterHalfwords_succ, afterHalfwords_zero]
    rfl

/-! ### Redrawing -/

@[simp] theorem testCandidate_withActivity (s : State) (a : Activity) (range t c : Half) :
    (s.withActivity a).testCandidate range t c = s.testCandidate range t c := by
  rw [State.testCandidate_eq, State.testCandidate_eq]
  rfl

/-- One iteration of the loop of R174, from a state that holds a rejected candidate. -/
theorem step_of_held {s : State} (hwaits : s.HostWaits) (g : GenState) (range : Half) {t c : Half}
    (hc : c < t) : step ((s.withGen g).withActivity (.redrawing range t c)) =
      .next ((s.withGen (halfword s.params g).2).testCandidate range t (halfword s.params g).1) := by
  rw [step_of_hostWaits (s := (s.withGen g).withActivity _) hwaits (by simp), advance_of_redrawing rfl]
  unfold State.redraw
  rw [if_pos hc]
  simp

/-- While the first `k` halfwords drawn from `g` are rejected, `k` steps lead to the test of the next. -/
theorem runSteps_testCandidate {s : State} (hwaits : s.HostWaits) (range : Half) {t : Half} (k : Nat)
    (g : GenState) (hrejected : ∀ j < k, halfwordAt s.params j g < t) :
    runSteps k ((s.withGen (halfword s.params g).2).testCandidate range t (halfword s.params g).1) =
      .next ((s.withGen (afterHalfwords s.params (k + 1) g)).testCandidate range t
        (halfwordAt s.params k g)) := by
  induction k generalizing g with
  | zero => rw [runSteps_zero, afterHalfwords_succ, afterHalfwords_zero, halfwordAt_zero]
  | succ k ih =>
    have hfirst : (halfword s.params g).1 < t := by
      rw [← halfwordAt_zero]
      exact hrejected 0 k.succ_pos
    have hrest : ∀ j < k, halfwordAt s.params j (halfword s.params g).2 < t := fun j hj => by
      rw [← halfwordAt_succ]
      exact hrejected (j + 1) (Nat.succ_lt_succ hj)
    rw [testCandidate_of_lt _ hfirst, runSteps_succ (step_of_held hwaits _ range hfirst), ih _ hrest,
      ← afterHalfwords_succ, ← halfwordAt_succ]

/-- R173, R178: the reseeds, the first draw and `k` redraws of an accepted SAMPLE lead to the test of
halfword `k`, if all before it are rejected. -/
theorem runSteps_sample {s : State} {range : Half} {reseed : Word32} {k : Nat}
    (hactivity : s.activity = .accepted (encode (.sample range reseed))) (hwaits : s.HostWaits)
    (hrange : 2 ≤ range.toNat)
    (hrejected : ∀ j < k, (halfwordAt s.params j (expandTimes s.params reseed.toNat s.gen)).toNat
      < 65536 % range.toNat) :
    runSteps (reseed.toNat + 1 + k) s =
      .next ((s.withGen (afterHalfwords s.params (k + 1)
          (expandTimes s.params reseed.toNat s.gen))).testCandidate range (rejectionThreshold range)
        (halfwordAt s.params k (expandTimes s.params reseed.toNat s.gen))) := by
  rw [← rejectionThreshold_toNat (by omega)] at hrejected
  rw [runSteps_add (runSteps_reseeds hwaits hactivity), limit_of_ne_one _ (ne_one_of_two_le hrange)]
  exact runSteps_testCandidate hwaits range k _ hrejected

/-- Settles O54. -/
theorem sampleCompletesWithTheFirstAcceptedHalfword :
    Obligations.SampleCompletesWithTheFirstAcceptedHalfword := by
  unfold Obligations.SampleCompletesWithTheFirstAcceptedHalfword
  intro s range reseed k hactivity hwaits hrange hrejected haccepted
  rw [runSteps_sample hactivity hwaits hrange hrejected, testCandidate_of_mod_le _ hrange haccepted]
  rfl

/-- Settles O56. -/
theorem sampleStaysBusyWhileRejecting : Obligations.SampleStaysBusyWhileRejecting := by
  unfold Obligations.SampleStaysBusyWhileRejecting
  intro s range reseed m hactivity hwaits hrange hrejected
  rw [runSteps_sample hactivity hwaits hrange fun j hj => hrejected j hj.le,
    testCandidate_of_lt_mod _ hrange (hrejected m m.le_refl)]
  rfl

/-! ### A SAMPLE that never completes -/

theorem halfwordAt_of_fixed {p : Params} {g : GenState} (hg : (halfword p g).2 = g) (j : Nat) :
    halfwordAt p j g = (halfword p g).1 := by
  induction j with
  | zero => exact halfwordAt_zero p g
  | succ j ih => rw [halfwordAt_succ, hg, ih]

/-- Where the halfword leads back to its own state and is rejected, the engine stays busy (R177). -/
theorem runSteps_busy_of_fixed {s : State} {range : Half}
    (hactivity : s.activity = .accepted (encode (.sample range 0))) (hwaits : s.HostWaits)
    (hrange : 2 ≤ range.toNat) (hfixed : (halfword s.params s.gen).2 = s.gen)
    (hrejected : (halfword s.params s.gen).1.toNat < 65536 % range.toNat) (k : Nat) :
    ∃ t, runSteps k s = .next t ∧ t.busy = true := by
  cases k with
  | zero => exact ⟨s, runSteps_zero s, by simp [hactivity]⟩
  | succ m =>
    have hzero : (0 : Word32).toNat = 0 := rfl
    have hall : ∀ j, (halfwordAt s.params j (expandTimes s.params (0 : Word32).toNat s.gen)).toNat
        < 65536 % range.toNat := fun j => by
      rwa [hzero, expandTimes_zero, halfwordAt_of_fixed hfixed]
    have hrun := runSteps_sample hactivity hwaits hrange fun j (_ : j < m) => hall j
    rw [testCandidate_of_lt_mod _ hrange (hall m), hzero, Nat.zero_add, Nat.add_comm] at hrun
    exact ⟨_, hrun, by simp⟩

/-- Parameters under which the trigger check (R141) takes the first trigger to the second, from which
the three draws of a halfword lead back to the first. -/
def stuckParams : Params where
  cycleTable := EscapeTable.ofList []
  startTable := EscapeTable.ofList []
  triggers := TriggerTable.ofList [0xDAF6DA481081F9B1, 0x0369D0369D0369D2, 1, 2]
  layout := Layout.default
  selectors := ⟨6, 4, rfl⟩

/-- An engine standing at the first trigger that has accepted `SAMPLE 32769, 0`. -/
def stuckSample : State where
  gen := GenState.unpack Layout.default 0xDAF6DA481081F9B1
  result := 0
  err := .none
  errSeen := false
  activity := .accepted (encode (.sample 32769 0))
  params := stuckParams
  inputs := []

theorem stuckSample_halfword :
    (halfword stuckSample.params stuckSample.gen).2 = stuckSample.gen ∧
      (halfword stuckSample.params stuckSample.gen).1.toNat < 65536 % (32769 : Half).toNat := by
  decide +kernel

/-- Settles O57: the halfword at the first trigger is below 32767 and leads back to the trigger. -/
theorem someSampleNeverCompletes : Obligations.SomeSampleNeverCompletes := by
  unfold Obligations.SomeSampleNeverCompletes
  obtain ⟨hfixed, hrejected⟩ := stuckSample_halfword
  exact ⟨stuckSample, rfl, rfl, runSteps_busy_of_fixed rfl (.inl rfl) (by decide) hfixed hrejected⟩

/-! ### Reproducibility -/

/-- After a LOAD two engines with the same tables are alike but for what their hosts do next. -/
theorem alike_of_load {s₁ s₂ : State} (hparams : s₁.params = s₂.params) (v : Word64) :
    Alike True ((s₁.withGen (GenState.unpack s₁.params.layout v)).complete v)
      (((s₂.withGen (GenState.unpack s₂.params.layout v)).complete v).withInputs s₁.inputs) where
  gen := congrArg (fun p : Params => GenState.unpack p.layout v) hparams
  activity := rfl
  params := hparams
  inputs := rfl
  result _ := rfl

/-- Settles O30: a command does not look at the host's actions, and does the same in engines alike. -/
theorem loadMakesReproducible : Obligations.LoadMakesReproducible := by
  unfold Obligations.LoadMakesReproducible
  intro v i s₁ s₂ hparams
  obtain ⟨u₁, u₂', hu₁, hu₂', halike⟩ := (alike_of_load hparams v).exec i
  obtain ⟨u₂, hu₂, -⟩ := exec_next i ((s₂.withGen (GenState.unpack s₂.params.layout v)).complete v)
  obtain rfl : u₂' = u₂.withInputs s₁.inputs :=
    Host.Outcome.next.inj (hu₂'.symm.trans (exec_withInputs s₁.inputs hu₂))
  exact ⟨_, _, u₁, u₂, exec_load v s₁, exec_load v s₂, hu₁, hu₂, halike.gen, halike.result trivial,
    halike.activity⟩

end Sys2Proof.Machine
end

section
/-! SUPPORT. The statements about NOP, LOAD and READ (45_state_transfer.md): each command in one step, its
value and fields by the reference's codec over natural numbers. -/

namespace Sys2Proof.Machine

theorem exec_nop (s : State) : exec .nop s = .next (s.complete s.result) := rfl

/-- Settles O28: the reference unpacks the number of a value as the codec unpacks the value. -/
theorem loadResult : Obligations.LoadResult := by
  unfold Obligations.LoadResult
  intro v s
  exact ⟨GenState.unpack s.params.layout v, exec_load v s,
    (Reference.unpacked_toNat s.params.layout v).symm⟩

/-- Settles O29: the reference packs the numbers of the fields as the codec packs the fields. -/
theorem readResult : Obligations.ReadResult := by
  unfold Obligations.ReadResult
  intro s
  exact ⟨s.gen.pack s.params.layout, exec_read s, (Reference.packed_fieldsOf s.params.layout s.gen).symm⟩

/-- Settles O27: NOP completes with the `RESULT` it found. -/
theorem nopCompletes : Obligations.NopCompletes := by
  unfold Obligations.NopCompletes
  intro s
  rw [exec_nop, State.complete_result_self]

end Sys2Proof.Machine
end

section
/-! SUPPORT. The two errors of the command port (60_exceptions.md R200 to R209): which words raise them,
what they do, and how commands and steps treat `ERR`, `ERRSEEN` and `RESULT`. -/

namespace Sys2Proof

/-! ### Which words raise an error -/

theorem opcodeField_toNat (w : Word64) : (opcodeField w).toNat = w.toNat % 16 := by
  simp [opcodeField]

theorem reserved0Field_toNat (w : Word64) : (reserved0Field w).toNat = w.toNat / 16 % 16 := by
  simp [reserved0Field, Nat.shiftRight_eq_div_pow]

/-- `RSV1` and the bits above the opcode reach bit 63, so the quotient is the whole field. -/
theorem reserved1Field_toNat (w : Word64) : (reserved1Field w).toNat = w.toNat / 2 ^ 56 := by
  have := w.isLt
  simp only [reserved1Field, BitVec.extractLsb'_toNat, Nat.shiftRight_eq_div_pow]
  omega

theorem aboveOpcodeField_toNat (w : Word64) : (aboveOpcodeField w).toNat = w.toNat / 16 := by
  have := w.isLt
  simp only [aboveOpcodeField, BitVec.extractLsb'_toNat, Nat.shiftRight_eq_div_pow]
  omega

/-- R205: the opcode is checked before anything else, and no other check raises this error. -/
theorem decode_eq_illegalOpcode_iff (c : Command) :
    decode c = .error .illegalOpcode ↔ 8#4 ≤ opcodeField c.cmd := by
  unfold decode
  by_cases hillegal : 8#4 ≤ opcodeField c.cmd
  · simp [hillegal]
  · rw [if_neg hillegal]
    split_ifs <;> simp [hillegal]

/-- R203: SAMPLE's word has two reserved fields, any other legal word all bits above the opcode. -/
theorem decode_eq_reservedNonzero_iff (c : Command) :
    decode c = .error .reservedNonzero ↔ ¬ 8#4 ≤ opcodeField c.cmd ∧
      if opcodeField c.cmd = 5#4 then reserved0Field c.cmd ≠ 0#4 ∨ reserved1Field c.cmd ≠ 0#8
      else aboveOpcodeField c.cmd ≠ 0#60 := by
  unfold decode
  by_cases hillegal : 8#4 ≤ opcodeField c.cmd
  · simp [hillegal]
  · by_cases hsample : opcodeField c.cmd = 5#4
    · rw [if_neg hillegal, if_pos hsample, if_pos hsample]
      split_ifs with hreserved
      · exact iff_of_true rfl ⟨hillegal, hreserved⟩
      · exact iff_of_false nofun fun h => hreserved h.2
    · rw [if_neg hillegal, if_neg hsample, if_neg hsample]
      split_ifs with habove <;> simp [hillegal, habove]

/-- Settles O22: the decoder's checks, read off the numbers of the fields. -/
theorem decoderErrorsExactly : Obligations.DecoderErrorsExactly := by
  unfold Obligations.DecoderErrorsExactly
  intro c
  have hlegal : 8#4 ≤ opcodeField c.cmd ↔ 8 ≤ c.cmd.toNat % 16 := by
    rw [BitVec.le_def, opcodeField_toNat]
    rfl
  refine ⟨(decode_eq_illegalOpcode_iff c).trans hlegal, (decode_eq_reservedNonzero_iff c).trans ?_⟩
  simp only [hlegal, ne_eq, ← BitVec.toNat_inj, opcodeField_toNat, reserved0Field_toNat,
    reserved1Field_toNat, aboveOpcodeField_toNat, BitVec.toNat_ofNat]
  split_ifs <;> omega

namespace Machine

/-! ### What an error does -/

theorem runAccepted_of_error {c : Command} {e : CommandError} (h : decode c = .error e) (s : State) :
    runAccepted c s = .next (s.raiseError e) := by
  unfold runAccepted
  rw [h]

/-- Settles O14. -/
theorem erroneousCommandEffect : Obligations.ErroneousCommandEffect := by
  unfold Obligations.ErroneousCommandEffect
  intro s c e he
  refine ⟨s.raiseError e, runAccepted_of_error he s, rfl, rfl, rfl, ?_, rfl, rfl, rfl⟩
  cases e <;> rfl

/-! ### What a command does to the status -/

/-- Settles O7: each effect of a command leaves `ERRSEEN`, and either completes or stays busy. -/
theorem commandsClearErrAndKeepErrSeen : Obligations.CommandsClearErrAndKeepErrSeen := by
  unfold Obligations.CommandsClearErrAndKeepErrSeen
  intro i s t hexec
  have heffect := exec_effect hexec
  rw [State.busy_eq_false_iff, State.busy_eq_true_iff]
  refine ⟨heffect.errSeen_eq, ?_⟩
  obtain ⟨hidle, herr⟩ | ⟨hbusy, hsame⟩ := heffect.completed_or_busy
  · exact ⟨fun _ => herr, fun hbusy => absurd hidle hbusy⟩
  · exact ⟨fun hidle => absurd hidle hbusy, fun _ => hsame⟩

/-! ### The invariant of the status -/

theorem statusConsistent_of_err_eq_none {s : State} (h : s.err = .none) : s.StatusConsistent :=
  fun herr => absurd h herr

theorem raiseError_statusConsistent (s : State) (e : CommandError) : (s.raiseError e).StatusConsistent :=
  fun _ => ⟨rfl, rfl⟩

/-- A command that completes leaves no error; one that stays busy leaves what the invariant speaks of. -/
theorem Effect.statusConsistent {s t : State} (h : Effect s t) (hs : s.StatusConsistent) :
    t.StatusConsistent := by
  obtain ⟨-, herr⟩ | ⟨-, herr, hresult⟩ := h.completed_or_busy
  · exact statusConsistent_of_err_eq_none herr
  · unfold State.StatusConsistent
    rw [herr, h.errSeen_eq, hresult]
    exact hs

theorem advance_statusConsistent {s t : State} (hs : s.StatusConsistent) (h : advance s = .next t) :
    t.StatusConsistent := by
  obtain ⟨-, rfl⟩ | ⟨-, ⟨e, rfl⟩ | heffect⟩ := advance_next_cases h
  · exact hs
  · exact raiseError_statusConsistent s e
  · exact heffect.statusConsistent hs

/-- Settles O4: reset and completion leave no error, an error writes `ERRSEEN` and `RESULT` as well, and
nothing else a step does writes any of the three. -/
theorem statusStaysConsistent : Obligations.StatusStaysConsistent := by
  unfold Obligations.StatusStaysConsistent
  intro s t hs hstep
  obtain ⟨rest, -, rfl⟩ | ⟨c, rest, -, -, rfl⟩ | ⟨-, hadvance⟩ := step_next_cases hstep
  · exact statusConsistent_of_err_eq_none rfl
  · exact hs
  · exact advance_statusConsistent (s := s.withInputs (afterPause s.inputs)) hs hadvance

end Machine

end Sys2Proof
end

section
/-! SUPPORT. Reset and the command port (70_reset_and_hazards.md R230 to R239): what a step does under each
of the host's actions, and what it leaves alone until a command completes. -/

namespace Sys2Proof.Machine

/-! ### RESULT and the error fields -/

/-- An engine that was idle, or is still busy, has completed nothing in its own work: completion and an
error are the two ways to write `RESULT` and the error fields, and both leave a busy engine idle. -/
theorem advance_keeps_result_unless_completes {s t : State} (h : advance s = .next t)
    (hopen : s.activity = .idle ∨ t.activity ≠ .idle) :
    t.result = s.result ∧ t.err = s.err ∧ t.errSeen = s.errSeen := by
  obtain ⟨-, rfl⟩ | ⟨hbusy, hworked⟩ := advance_next_cases h
  · exact ⟨rfl, rfl, rfl⟩
  · have hstillBusy : t.activity ≠ .idle := hopen.resolve_left hbusy
    obtain ⟨e, rfl⟩ | heffect := hworked
    · exact absurd rfl hstillBusy
    · obtain ⟨hidle, -⟩ | ⟨-, herr, hresult⟩ := heffect.completed_or_busy
      · exact absurd hidle hstillBusy
      · exact ⟨hresult, herr, heffect.errSeen_eq⟩

/-- Settles O9: without a reset a step accepts a command, which writes none of the three, or is the
engine's own work. -/
theorem resultChangesOnlyAtCompletion : Obligations.ResultChangesOnlyAtCompletion := by
  unfold Obligations.ResultChangesOnlyAtCompletion
  intro s t hnoReset hstep hopen
  rw [State.busy_eq_false_iff, State.busy_eq_true_iff] at hopen
  obtain ⟨rest, hin, -⟩ | ⟨c, rest, -, -, rfl⟩ | ⟨-, hadvance⟩ := step_next_cases hstep
  · exact absurd (by simp [hin]) hnoReset
  · exact ⟨rfl, rfl, rfl⟩
  · exact advance_keeps_result_unless_completes (s := s.withInputs (afterPause s.inputs)) hadvance hopen

/-! ### The waiting command -/

theorem step_of_inputs_eq_nil {s : State} (hin : s.inputs = []) : step s = advance s := by
  unfold step portStep
  rw [hin]

/-- Settles O15: a busy engine works on whatever waits at its port, and that work does not look at the
host's actions. -/
theorem waitingCommandHasNoEffect : Obligations.WaitingCommandHasNoEffect := by
  unfold Obligations.WaitingCommandHasNoEffect
  intro s c rest hin
  rw [State.busy_eq_false_iff, State.busy_eq_true_iff]
  refine ⟨fun hidle => step_of_idle_of_present hidle hin, fun hbusy t hsilent => ?_⟩
  have hadvance : advance (s.withInputs []) = .next t :=
    (step_of_inputs_eq_nil (s := s.withInputs []) rfl).symm.trans hsilent
  calc step s = advance s := step_of_hostWaits (.inr ⟨c, rest, hin⟩) hbusy
    _ = .next (t.withInputs s.inputs) := advance_withInputs (s := s.withInputs []) s.inputs hadvance

/-! ### The accepted command -/

theorem runAccepted_of_ok {c : Command} {i : Instr} (h : decode c = .ok i) (s : State) :
    runAccepted c s = exec i s := by
  unfold runAccepted
  rw [h]

/-- R235: the accepted command runs at the next step that is no reset. -/
theorem step_of_accepted {s : State} {c : Command} (hactivity : s.activity = .accepted c)
    (hnoReset : s.NoReset) : step s = runAccepted c (s.withInputs (afterPause s.inputs)) := by
  rw [step_of_noReset hnoReset (by simp [hactivity])]
  exact advance_of_accepted (s := s.withInputs (afterPause s.inputs)) hactivity

/-- Settles O12. -/
theorem stepRunsTheAcceptedCommand : Obligations.StepRunsTheAcceptedCommand := by
  unfold Obligations.StepRunsTheAcceptedCommand
  intro s c hactivity hnoReset
  rw [step_of_accepted hactivity hnoReset]
  exact ⟨fun i hi => runAccepted_of_ok hi _, fun e he => runAccepted_of_error he _⟩

theorem decodeTableWord_eq_some_iff (nbits w : Nat) (i : Instr) :
    decodeTableWord nbits w = some i ↔ decode (commandOfTableBits nbits w) = .ok i := by
  unfold decodeTableWord
  cases decode (commandOfTableBits nbits w) <;> simp

/-- A reset that stood first is put off behind a pause. -/
theorem head?_letOneStepPass_ne_reset (inputs : List HostAction) :
    (letOneStepPass inputs).head? ≠ some .reset := by
  unfold letOneStepPass
  split
  · simp
  · next hfirst =>
    rw [ne_eq, List.head?_eq_some_iff]
    rintro ⟨rest, rfl⟩
    exact hfirst rest rfl

theorem withFetchWord_noReset (s : State) (nbits w : Nat) : (s.withFetchWord nbits w).NoReset :=
  head?_letOneStepPass_ne_reset s.inputs

/-- Settles O13: the word stands in the engine as its accepted command, and no reset comes before it. -/
theorem fetchWordRunsNext : Obligations.FetchWordRunsNext := by
  unfold Obligations.FetchWordRunsNext
  intro s nbits w i hword
  rw [decodeTableWord_eq_some_iff] at hword
  refine ⟨afterPause (letOneStepPass s.inputs), ?_⟩
  rw [step_of_accepted rfl (withFetchWord_noReset s nbits w), runAccepted_of_ok hword]
  rfl

/-! ### Reset -/

theorem step_of_reset {s : State} {rest : List HostAction} (hin : s.inputs = .reset :: rest) :
    step s = .next (s.withInputs rest).applyReset := by
  unfold step portStep
  rw [hin]

/-- Settles O16. -/
theorem resetActsAtEveryStep : Obligations.ResetActsAtEveryStep := by
  unfold Obligations.ResetActsAtEveryStep
  intro s rest hin
  refine ⟨(s.withInputs rest).applyReset, step_of_reset hin, rfl, rfl, State.status_eq_zero rfl rfl rfl,
    rfl, rfl, fun c rest' hrest => ?_⟩
  exact step_of_idle_of_present (s := (s.withInputs rest).applyReset) rfl hrest

/-- After a reset nothing is left of a state but its tables and the host's actions. -/
theorem applyReset_eq_of_params_inputs {s₁ s₂ : State} (hparams : s₁.params = s₂.params)
    (hinputs : s₁.inputs = s₂.inputs) : s₁.applyReset = s₂.applyReset := by
  unfold State.applyReset
  rw [hparams, hinputs]

/-- Settles O17: both engines are reset, under the same remaining actions. -/
theorem nothingSurvivesAReset : Obligations.NothingSurvivesAReset := by
  unfold Obligations.NothingSurvivesAReset
  intro s₁ s₂ hparams hinputs hreset
  obtain ⟨rest, hin⟩ : ∃ rest, s₁.inputs = .reset :: rest := List.head?_eq_some_iff.mp (not_not.mp hreset)
  rw [step_of_reset hin, step_of_reset (hinputs.symm.trans hin),
    applyReset_eq_of_params_inputs (s₁ := s₁.withInputs rest) (s₂ := s₂.withInputs rest) hparams rfl]

/-! ### The end of a run -/

theorem advance_of_idle {s : State} (hidle : s.activity = .idle) : advance s = .next s := by
  unfold advance
  rw [hidle]

/-- Settles O18. -/
theorem endedRunStays : Obligations.EndedRunStays := by
  unfold Obligations.EndedRunStays
  rintro s ⟨hsilent, hidle⟩
  rw [step_of_inputs_eq_nil hsilent, advance_of_idle hidle]

end Sys2Proof.Machine
end
